-- ==== Sys2Proof/Word.lean ====
section
/-! DEFINITION. The word types of the machine: bytes, 16-bit words, 12-bit addresses in an instruction, register numbers (00_scope.md R6, R8, R9). -/

namespace Sys2Proof

/-- A byte: a general register, a timer, a memory cell (R20, R27, R50). Unsigned (R9). -/
abbrev Byte := BitVec 8

/-- A 16-bit word: an instruction, `I`, `pc`, a stack entry (R23, R24, R25, R80). Unsigned (R9). -/
abbrev Word := BitVec 16

/-- The 12-bit field `nnn` of an instruction (R81). -/
abbrev Addr12 := BitVec 12

/-- A register number, 0..15: the fields `x` and `y` (R20, R81). -/
abbrev Reg := Fin 16

/-- The number of the flag register `VF` (R22). -/
abbrev flagReg : Reg := 15

end Sys2Proof
end

