-- ==== Sys2Proof/Syntax.lean ====
section
/-! DEFINITION. The instructions: one constructor for each of the 36 rows of spec/opcode_table.json, with the operands its pattern names (30_encoding.md R81, R82, R85). -/

namespace Sys2Proof

/-- An instruction. `x`, `y` are register numbers, `kk` an immediate byte, `nnn` a 12-bit address, `n` a
count of sprite rows. `shr` and `shl` keep the field `y`, and `sys` the field `nnn`, that the machine
ignores (R88, R89), so that no bit of the word is lost. -/
inductive Instr where
  /-- 0000, the halt sentinel (row 1, R118) -/
  | halt
  /-- 00E0 (row 2, R201) -/
  | cls
  /-- 00EE (row 3, R130) -/
  | ret
  /-- 0nnn, but 0000, 00E0 and 00EE (row 4, R119) -/
  | sys (nnn : Addr12)
  /-- 1nnn (row 5, R131) -/
  | jp (nnn : Addr12)
  /-- 2nnn (row 6, R132) -/
  | call (nnn : Addr12)
  /-- 3xkk (row 7, R133) -/
  | seImm (x : Reg) (kk : Byte)
  /-- 4xkk (row 8, R134) -/
  | sneImm (x : Reg) (kk : Byte)
  /-- 5xy0 (row 9, R135) -/
  | seReg (x y : Reg)
  /-- 6xkk (row 10, R151) -/
  | ldImm (x : Reg) (kk : Byte)
  /-- 7xkk (row 11, R152) -/
  | addImm (x : Reg) (kk : Byte)
  /-- 8xy0 (row 12, R153) -/
  | ldReg (x y : Reg)
  /-- 8xy1 (row 13, R154) -/
  | orReg (x y : Reg)
  /-- 8xy2 (row 14, R155) -/
  | andReg (x y : Reg)
  /-- 8xy3 (row 15, R156) -/
  | xorReg (x y : Reg)
  /-- 8xy4 (row 16, R157) -/
  | addReg (x y : Reg)
  /-- 8xy5 (row 17, R158) -/
  | subReg (x y : Reg)
  /-- 8xy6, `y` ignored (row 18, R159) -/
  | shr (x y : Reg)
  /-- 8xy7 (row 19, R160) -/
  | subn (x y : Reg)
  /-- 8xyE, `y` ignored (row 20, R161) -/
  | shl (x y : Reg)
  /-- 9xy0 (row 21, R136) -/
  | sneReg (x y : Reg)
  /-- Annn (row 22, R180) -/
  | ldI (nnn : Addr12)
  /-- Bnnn (row 23, R137) -/
  | jpV0 (nnn : Addr12)
  /-- Cxkk (row 24, R164) -/
  | rnd (x : Reg) (kk : Byte)
  /-- Dxyn (row 25, R202) -/
  | drw (x y : Reg) (n : Fin 16)
  /-- Ex9E (row 26, R221) -/
  | skp (x : Reg)
  /-- ExA1 (row 27, R222) -/
  | sknp (x : Reg)
  /-- Fx07 (row 28, R225) -/
  | ldVxDt (x : Reg)
  /-- Fx0A (row 29, R223) -/
  | ldVxK (x : Reg)
  /-- Fx15 (row 30, R226) -/
  | ldDtVx (x : Reg)
  /-- Fx18 (row 31, R227) -/
  | ldStVx (x : Reg)
  /-- Fx1E (row 32, R181) -/
  | addI (x : Reg)
  /-- Fx29 (row 33, R182) -/
  | ldF (x : Reg)
  /-- Fx33 (row 34, R183) -/
  | ldB (x : Reg)
  /-- Fx55 (row 35, R184) -/
  | ldMemVx (x : Reg)
  /-- Fx65 (row 36, R185) -/
  | ldVxMem (x : Reg)
  deriving DecidableEq, Repr

end Sys2Proof
end

