-- ==== Sys2Proof/WellFormed.lean ====
section
/-! DEFINITION. When a term of `Instr` stands for an instruction of the machine. Every field's range is in its type; what is left to check is that `SYS` is not one of the three exact words of the `0` page (30_encoding.md R84, R89). -/

namespace Sys2Proof

/-- The words 0x0000, 0x00E0 and 0x00EE are HALT, CLS and RET, never SYS (R84, R85 row 4, R89). -/
def sysOperandOk (nnn : Addr12) : Bool :=
  nnn != 0x000#12 && nnn != 0x0E0#12 && nnn != 0x0EE#12

/-- Well-formedness of an instruction. -/
def Instr.wellFormed : Instr → Bool
  | .sys nnn => sysOperandOk nnn
  | .halt | .cls | .ret | .jp _ | .call _ | .seImm _ _ | .sneImm _ _ | .seReg _ _ | .ldImm _ _
  | .addImm _ _ | .ldReg _ _ | .orReg _ _ | .andReg _ _ | .xorReg _ _ | .addReg _ _ | .subReg _ _
  | .shr _ _ | .subn _ _ | .shl _ _ | .sneReg _ _ | .ldI _ | .jpV0 _ | .rnd _ _ | .drw _ _ _
  | .skp _ | .sknp _ | .ldVxDt _ | .ldVxK _ | .ldDtVx _ | .ldStVx _ | .addI _ | .ldF _ | .ldB _
  | .ldMemVx _ | .ldVxMem _ => true

end Sys2Proof
end

