-- ==== Sys2Proof/Decode.lean ====
section
/-! DEFINITION. The decoder, total on every word and every list of bytes, and after it the encoder (30_encoding.md R80 to R90); the opcode table of R85 as masks and matches. -/

namespace Sys2Proof

/-! The fields of a word (R81). -/

/-- Bits 15:12, the major opcode. -/
def opField (w : Word) : BitVec 4 := w.extractLsb' 12 4

/-- Bits 11:8. -/
def xField (w : Word) : Reg := (w.extractLsb' 8 4).toFin

/-- Bits 7:4. -/
def yField (w : Word) : Reg := (w.extractLsb' 4 4).toFin

/-- Bits 3:0. -/
def nField (w : Word) : BitVec 4 := w.extractLsb' 0 4

/-- Bits 7:0. -/
def kkField (w : Word) : Byte := w.extractLsb' 0 8

/-- Bits 11:0, the source's `addr`. -/
def nnnField (w : Word) : Addr12 := w.extractLsb' 0 12

/-! Dispatch (R84): the exact words first, then the top nibble, with the low nibble or the low byte
where the pattern fixes it. -/

/-- The `0` page: 0x0000, 0x00E0, 0x00EE before the range `0nnn` (R84 step 1, R89). -/
def decodeZeroPage (w : Word) : Instr :=
  if w = 0x0000#16 then .halt
  else if w = 0x00E0#16 then .cls
  else if w = 0x00EE#16 then .ret
  else .sys (nnnField w)

/-- The `8xy_` family, by the low nibble: 0 to 7 and E only (R85 rows 12 to 20, R86). -/
def decodeAlu (w : Word) : Option Instr :=
  match nField w with
  | 0x0#4 => some (.ldReg (xField w) (yField w))
  | 0x1#4 => some (.orReg (xField w) (yField w))
  | 0x2#4 => some (.andReg (xField w) (yField w))
  | 0x3#4 => some (.xorReg (xField w) (yField w))
  | 0x4#4 => some (.addReg (xField w) (yField w))
  | 0x5#4 => some (.subReg (xField w) (yField w))
  | 0x6#4 => some (.shr (xField w) (yField w))
  | 0x7#4 => some (.subn (xField w) (yField w))
  | 0xE#4 => some (.shl (xField w) (yField w))
  | _ => none

/-- The `Ex__` family, by the low byte: 9E and A1 only (R85 rows 26, 27, R86). -/
def decodeKey (w : Word) : Option Instr :=
  match kkField w with
  | 0x9E#8 => some (.skp (xField w))
  | 0xA1#8 => some (.sknp (xField w))
  | _ => none

/-- The `Fx__` family, by the low byte: nine values only (R85 rows 28 to 36, R86). -/
def decodeMisc (w : Word) : Option Instr :=
  match kkField w with
  | 0x07#8 => some (.ldVxDt (xField w))
  | 0x0A#8 => some (.ldVxK (xField w))
  | 0x15#8 => some (.ldDtVx (xField w))
  | 0x18#8 => some (.ldStVx (xField w))
  | 0x1E#8 => some (.addI (xField w))
  | 0x29#8 => some (.ldF (xField w))
  | 0x33#8 => some (.ldB (xField w))
  | 0x55#8 => some (.ldMemVx (xField w))
  | 0x65#8 => some (.ldVxMem (xField w))
  | _ => none

/-- The instruction a word stands for; none for an illegal word (R84 to R87, R114). `5xy_` and `9xy_`
need the low nibble 0 (R87, decision D4, log entry 9). -/
def decode (w : Word) : Option Instr :=
  match opField w with
  | 0x0#4 => some (decodeZeroPage w)
  | 0x1#4 => some (.jp (nnnField w))
  | 0x2#4 => some (.call (nnnField w))
  | 0x3#4 => some (.seImm (xField w) (kkField w))
  | 0x4#4 => some (.sneImm (xField w) (kkField w))
  | 0x5#4 => if nField w = 0x0#4 then some (.seReg (xField w) (yField w)) else none
  | 0x6#4 => some (.ldImm (xField w) (kkField w))
  | 0x7#4 => some (.addImm (xField w) (kkField w))
  | 0x8#4 => decodeAlu w
  | 0x9#4 => if nField w = 0x0#4 then some (.sneReg (xField w) (yField w)) else none
  | 0xA#4 => some (.ldI (nnnField w))
  | 0xB#4 => some (.jpV0 (nnnField w))
  | 0xC#4 => some (.rnd (xField w) (kkField w))
  | 0xD#4 => some (.drw (xField w) (yField w) (nField w).toFin)
  | 0xE#4 => decodeKey w
  | 0xF#4 => decodeMisc w
  | _ => none

/-! Bytes and words: the byte at the lower address holds bits 15:8 (R55). -/

/-- The word whose first byte is `hi` (R55). -/
def wordOfBytes (hi lo : Byte) : Word := hi ++ lo

/-- The byte of a word that stands at the lower address (R55). -/
def hiByte (w : Word) : Byte := w.extractLsb' 8 8

/-- The byte of a word that stands at the higher address (R55). -/
def loByte (w : Word) : Byte := w.extractLsb' 0 8

/-- The bytes of a word in address order (R55). -/
def wordBytes (w : Word) : List Byte := [hiByte w, loByte w]

/-- Why bytes decode to nothing. -/
inductive DecodeReject where
  /-- fewer than two bytes are left (every instruction has two, R80) -/
  | truncated
  /-- the word matches no row of R85 (R86) -/
  | illegalWord (w : Word)
  deriving DecidableEq, Repr

/-- Decode the first instruction of a list of bytes; the rest of the list comes back with it. -/
def decodeBytes : List Byte → Except DecodeReject (Instr × List Byte)
  | hi :: lo :: rest =>
    match decode (wordOfBytes hi lo) with
    | some i => .ok (i, rest)
    | none => .error (.illegalWord (wordOfBytes hi lo))
  | _ => .error .truncated

/-- The instruction the decoder reads from a table word: `w`'s low `nbits` bits as the 16-bit word,
laid out as the machine stores it, high byte first (R55). -/
def decodeTableWord (nbits w : Nat) : Option Instr :=
  match decodeBytes (wordBytes (BitVec.ofNat 16 (w % 2 ^ nbits))) with
  | .ok (i, _) => some i
  | .error _ => none

/-! The encoder: the patterns of R85, four nibbles from bit 15 down. -/

/-- A register number as a nibble. -/
def regBits (r : Reg) : BitVec 4 := BitVec.ofFin r

/-- Format `NNN` (R82). -/
def packNnn (op : BitVec 4) (nnn : Addr12) : Word := op ++ nnn

/-- Format `XKK`, and `XFF` with `kk` the minor opcode (R82). -/
def packXkk (op : BitVec 4) (x : Reg) (kk : Byte) : Word := op ++ (regBits x ++ kk)

/-- Format `XYN` (R82). -/
def packXyn (op : BitVec 4) (x y : Reg) (n : BitVec 4) : Word :=
  op ++ (regBits x ++ (regBits y ++ n))

/-- The word of an instruction (R85). -/
def encode : Instr → Word
  | .halt => 0x0000#16
  | .cls => 0x00E0#16
  | .ret => 0x00EE#16
  | .sys nnn => packNnn 0x0#4 nnn
  | .jp nnn => packNnn 0x1#4 nnn
  | .call nnn => packNnn 0x2#4 nnn
  | .seImm x kk => packXkk 0x3#4 x kk
  | .sneImm x kk => packXkk 0x4#4 x kk
  | .seReg x y => packXyn 0x5#4 x y 0x0#4
  | .ldImm x kk => packXkk 0x6#4 x kk
  | .addImm x kk => packXkk 0x7#4 x kk
  | .ldReg x y => packXyn 0x8#4 x y 0x0#4
  | .orReg x y => packXyn 0x8#4 x y 0x1#4
  | .andReg x y => packXyn 0x8#4 x y 0x2#4
  | .xorReg x y => packXyn 0x8#4 x y 0x3#4
  | .addReg x y => packXyn 0x8#4 x y 0x4#4
  | .subReg x y => packXyn 0x8#4 x y 0x5#4
  | .shr x y => packXyn 0x8#4 x y 0x6#4
  | .subn x y => packXyn 0x8#4 x y 0x7#4
  | .shl x y => packXyn 0x8#4 x y 0xE#4
  | .sneReg x y => packXyn 0x9#4 x y 0x0#4
  | .ldI nnn => packNnn 0xA#4 nnn
  | .jpV0 nnn => packNnn 0xB#4 nnn
  | .rnd x kk => packXkk 0xC#4 x kk
  | .drw x y n => packXyn 0xD#4 x y (regBits n)
  | .skp x => packXkk 0xE#4 x 0x9E#8
  | .sknp x => packXkk 0xE#4 x 0xA1#8
  | .ldVxDt x => packXkk 0xF#4 x 0x07#8
  | .ldVxK x => packXkk 0xF#4 x 0x0A#8
  | .ldDtVx x => packXkk 0xF#4 x 0x15#8
  | .ldStVx x => packXkk 0xF#4 x 0x18#8
  | .addI x => packXkk 0xF#4 x 0x1E#8
  | .ldF x => packXkk 0xF#4 x 0x29#8
  | .ldB x => packXkk 0xF#4 x 0x33#8
  | .ldMemVx x => packXkk 0xF#4 x 0x55#8
  | .ldVxMem x => packXkk 0xF#4 x 0x65#8

/-- The bytes of an instruction in address order (R55, R80). -/
def encodeBytes (i : Instr) : List Byte := wordBytes (encode i)

/-! The table of R85, to hold the decoder against. -/

/-- One row of R85: `w &&& mask = pattern` selects it. -/
structure OpcodeRow where
  mask : Word
  pattern : Word
  deriving DecidableEq, Repr

/-- Does the row select the word (R85)? -/
def OpcodeRow.selects (r : OpcodeRow) (w : Word) : Bool := w &&& r.mask == r.pattern

/-- R85 rows 1 to 12. -/
def opcodeRowsA : List OpcodeRow :=
  [⟨0xFFFF#16, 0x0000#16⟩, ⟨0xFFFF#16, 0x00E0#16⟩, ⟨0xFFFF#16, 0x00EE#16⟩, ⟨0xF000#16, 0x0000#16⟩,
   ⟨0xF000#16, 0x1000#16⟩, ⟨0xF000#16, 0x2000#16⟩, ⟨0xF000#16, 0x3000#16⟩, ⟨0xF000#16, 0x4000#16⟩,
   ⟨0xF00F#16, 0x5000#16⟩, ⟨0xF000#16, 0x6000#16⟩, ⟨0xF000#16, 0x7000#16⟩, ⟨0xF00F#16, 0x8000#16⟩]

/-- R85 rows 13 to 24. -/
def opcodeRowsB : List OpcodeRow :=
  [⟨0xF00F#16, 0x8001#16⟩, ⟨0xF00F#16, 0x8002#16⟩, ⟨0xF00F#16, 0x8003#16⟩, ⟨0xF00F#16, 0x8004#16⟩,
   ⟨0xF00F#16, 0x8005#16⟩, ⟨0xF00F#16, 0x8006#16⟩, ⟨0xF00F#16, 0x8007#16⟩, ⟨0xF00F#16, 0x800E#16⟩,
   ⟨0xF00F#16, 0x9000#16⟩, ⟨0xF000#16, 0xA000#16⟩, ⟨0xF000#16, 0xB000#16⟩, ⟨0xF000#16, 0xC000#16⟩]

/-- R85 rows 25 to 36. -/
def opcodeRowsC : List OpcodeRow :=
  [⟨0xF000#16, 0xD000#16⟩, ⟨0xF0FF#16, 0xE09E#16⟩, ⟨0xF0FF#16, 0xE0A1#16⟩, ⟨0xF0FF#16, 0xF007#16⟩,
   ⟨0xF0FF#16, 0xF00A#16⟩, ⟨0xF0FF#16, 0xF015#16⟩, ⟨0xF0FF#16, 0xF018#16⟩, ⟨0xF0FF#16, 0xF01E#16⟩,
   ⟨0xF0FF#16, 0xF029#16⟩, ⟨0xF0FF#16, 0xF033#16⟩, ⟨0xF0FF#16, 0xF055#16⟩, ⟨0xF0FF#16, 0xF065#16⟩]

/-- The 36 rows of R85 in its order; the first row that selects a word wins (R84). -/
def opcodeRows : List OpcodeRow := opcodeRowsA ++ (opcodeRowsB ++ opcodeRowsC)

/-- The number of an instruction's row in R85, counted from 0. -/
def Instr.rowIndex : Instr → Nat
  | .halt => 0
  | .cls => 1
  | .ret => 2
  | .sys _ => 3
  | .jp _ => 4
  | .call _ => 5
  | .seImm _ _ => 6
  | .sneImm _ _ => 7
  | .seReg _ _ => 8
  | .ldImm _ _ => 9
  | .addImm _ _ => 10
  | .ldReg _ _ => 11
  | .orReg _ _ => 12
  | .andReg _ _ => 13
  | .xorReg _ _ => 14
  | .addReg _ _ => 15
  | .subReg _ _ => 16
  | .shr _ _ => 17
  | .subn _ _ => 18
  | .shl _ _ => 19
  | .sneReg _ _ => 20
  | .ldI _ => 21
  | .jpV0 _ => 22
  | .rnd _ _ => 23
  | .drw _ _ _ => 24
  | .skp _ => 25
  | .sknp _ => 26
  | .ldVxDt _ => 27
  | .ldVxK _ => 28
  | .ldDtVx _ => 29
  | .ldStVx _ => 30
  | .addI _ => 31
  | .ldF _ => 32
  | .ldB _ => 33
  | .ldMemVx _ => 34
  | .ldVxMem _ => 35

end Sys2Proof
end

