-- ==== Sys2Proof/Config.lean ====
section
/-! DEFINITION. What is fixed for the machine (00_scope.md R6) and the free values: the inputs of a tick and the choice among several pressed keys. A free value has no body, so nothing can be proved of its value. -/

namespace Sys2Proof.Config

/-- `MEM_SIZE`: addresses 0x000 to 0xFFF (R6, R50). -/
def memSize : Nat := 0x1000

/-- `PROGRAM_BASE`: the load address and the reset value of `pc` (R6, R40). -/
def programBase : Nat := 0x200

/-- `STACK_DEPTH` (R6, R25). -/
def stackDepth : Nat := 16

/-- `MAX_ROM`, the longest program the load accepts: 0xFFF - 0x200 bytes (R6, R272; 90_conflicts.md C3). -/
def maxRom : Nat := 3583

/-- FREE VALUE. The 16 key bits the environment shows to tick number `n` (bit `k` is key `k`), where
no input was supplied for it: R220, "successive ticks may see any snapshots" (93 U23). Log entry 1. -/
opaque keyState : Nat → BitVec 16

/-- FREE VALUE. The random byte of tick number `n`, where no input was supplied for it: "a fresh 8-bit
draw per tick, no seed, no generator, no distribution" (R164, 93 U1). Log entry 1. -/
opaque randomByte : Nat → Byte

/-- FREE VALUE. What decides `KeySelect` among several pressed keys (R224, OPEN): any number for each
key vector; `Machine.keySelect` takes it modulo the number of pressed keys. Log entry 3. -/
opaque keyChoice : BitVec 16 → Nat

end Sys2Proof.Config
end

