-- ==== Sys2Proof/Machine/State.lean ====
section
/-! DEFINITION. The state of the core as plain data, the reasons a step can stop, and the state after reset (10_state.md; 60_exceptions.md R241; 70_reset_and_hazards.md R270). -/

namespace Sys2Proof.Machine

/-- Memory as the bytes that differ from the reset contents: addresses strictly rising, no entry equal
to what the address reads as unlisted (`Machine.initialByte`). The canonical form is `Memory.wf`. -/
abbrev Memory := List Host.Cell

/-- The framebuffer: 32 rows of 64 pixels, `true` = on (R29, R200). -/
abbrev Framebuffer := Vector (Vector Bool 64) 32

/-- The two inputs of one tick (R110, D14): the 16 key bits (bit `k` is key `k`, R220) and the random
byte (R164). -/
structure TickInput where
  keys : BitVec 16
  rnd : Byte
  deriving DecidableEq, Repr

/-- The state of the core (10_state.md), and the model's two fields for the tick's inputs. -/
structure State where
  /-- the general registers `V[0..15]` (R20) -/
  v : Vector Byte 16
  /-- the index register `I` (R23) -/
  i : Word
  /-- the program counter (R24) -/
  pc : Word
  /-- the return stack `STACK[0..15]` (R25) -/
  stack : Vector Word 16
  /-- the stack pointer, 0..16 (R25) -/
  sp : Fin 17
  /-- the delay timer `DT` (R27) -/
  dt : Byte
  /-- the sound timer `ST` (R27) -/
  st : Byte
  /-- `MEM[0x000..0xFFF]` (R28, R50) -/
  mem : Memory
  /-- the framebuffer `FB` (R29) -/
  fb : Framebuffer
  /-- THE MODEL'S OWN: the inputs the driver has already supplied, one for each coming tick, oldest
  first (log entry 1) -/
  inputs : List TickInput
  /-- THE MODEL'S OWN: the number of the tick, at which the free inputs are drawn where `inputs` is
  empty (log entry 1) -/
  tickNo : Nat
  deriving DecidableEq, Repr

/-- The fatal conditions (R240, R241). Each ends the tick and the run; no state is left (R250). All are
safe: the machine stops where the spec says that it does. -/
inductive Fault where
  /-- code 1, raised by the dispatch of any tick on an illegal word (R242). Safe. -/
  | decodeError (word : Word)
  /-- code 2, raised by CALL when `SP = 16` (R243). Safe. -/
  | stackOverflow
  /-- code 3, raised by RET when `SP = 0` (R244). Safe. -/
  | stackUnderflow
  /-- code 4, raised by the fetch when `pc > 0x0FFE` and by DRW, LD B, LD [I] and LD Vx,[I] for an
  address above 0xFFF (R245; decision D2, log entry 7). Safe. -/
  | memoryBounds (addr : Nat)
  /-- code 5, raised by SKP and SKNP when `V[x] > 15` (R246; decision D7, log entry 12). Safe. -/
  | keyIndex (value : Byte)
  deriving DecidableEq, Repr

/-- Refusals: the model refuses no instruction that it has a meaning for. -/
inductive Refusal where
  /-- raised by `exec` for an instruction that has no meaning yet (none is left). Safe. -/
  | notModelled (mnemonic : String)
  deriving DecidableEq, Repr

/-- The machine right after reset, before a program is loaded (R40, R270). `pc`, `V` and `MEM` are the
source's; `I`, `SP`, `STACK`, `DT`, `ST` and `FB` are decision D10 (DESIGN CHOICE, log entry 14);
`inputs` and `tickNo` are the model's (DESIGN CHOICE, log entry 2). -/
def State.reset : State where
  v := Vector.replicate 16 0x00#8
  i := 0x0000#16
  pc := BitVec.ofNat 16 Config.programBase
  stack := Vector.replicate 16 0x0000#16
  sp := 0
  dt := 0x00#8
  st := 0x00#8
  mem := []
  fb := Vector.replicate 32 (Vector.replicate 64 false)
  inputs := []
  tickNo := 0

end Sys2Proof.Machine
end

