-- ==== Sys2Proof/Machine/Memory.lean ====
section
/-! DEFINITION. Memory: the reset contents, reading and writing one byte of the canonical list, and that form as a predicate (20_memory.md R50 to R59). -/

namespace Sys2Proof.Machine

/-- `FONT`, the 80 bytes of the digit sprites: the default table of R53, which the spec marks as general
knowledge (PRESUMED, log entry 4). -/
def font : List Byte :=
  [0xF0#8, 0x90#8, 0x90#8, 0x90#8, 0xF0#8] ++
  [0x20#8, 0x60#8, 0x20#8, 0x20#8, 0x70#8] ++
  [0xF0#8, 0x10#8, 0xF0#8, 0x80#8, 0xF0#8] ++
  [0xF0#8, 0x10#8, 0xF0#8, 0x10#8, 0xF0#8] ++
  [0x90#8, 0x90#8, 0xF0#8, 0x10#8, 0x10#8] ++
  [0xF0#8, 0x80#8, 0xF0#8, 0x10#8, 0xF0#8] ++
  [0xF0#8, 0x80#8, 0xF0#8, 0x90#8, 0xF0#8] ++
  [0xF0#8, 0x10#8, 0x20#8, 0x40#8, 0x40#8] ++
  [0xF0#8, 0x90#8, 0xF0#8, 0x90#8, 0xF0#8] ++
  [0xF0#8, 0x90#8, 0xF0#8, 0x10#8, 0xF0#8] ++
  [0xF0#8, 0x90#8, 0xF0#8, 0x90#8, 0x90#8] ++
  [0xE0#8, 0x90#8, 0xE0#8, 0x90#8, 0xE0#8] ++
  [0xF0#8, 0x80#8, 0x80#8, 0x80#8, 0xF0#8] ++
  [0xE0#8, 0x90#8, 0x90#8, 0x90#8, 0xE0#8] ++
  [0xF0#8, 0x80#8, 0xF0#8, 0x80#8, 0xF0#8] ++
  [0xF0#8, 0x80#8, 0xF0#8, 0x80#8, 0x80#8]

/-- What an unlisted address reads as: its contents at reset, the digit sprites from 0x000 and zero
elsewhere (R40, R52; log entry 5). -/
def initialByte (a : Nat) : Byte := font.getD a 0x00#8

/-- The byte at `a`. It is meant for addresses of the machine only: `State.readByte` checks the bound. -/
def Memory.read : Memory → Nat → Byte
  | [], a => initialByte a
  | (k, b) :: rest, a => if k = a then b else Memory.read rest a

/-- The entries that stand for byte `b` at `a`: none where that is what `a` reads as unlisted. -/
def cellFor (a : Nat) (b : Byte) : Memory := if b = initialByte a then [] else [(a, b)]

/-- Write byte `b` at `a`, in the canonical form. -/
def Memory.write : Memory → Nat → Byte → Memory
  | [], a, b => cellFor a b
  | (k, c) :: rest, a, b =>
    if a < k then cellFor a b ++ (k, c) :: rest
    else if a = k then cellFor a b ++ rest
    else (k, c) :: Memory.write rest a b

/-- The canonical form from address `lo` on: addresses strictly rising and inside memory, no entry equal
to what the address reads as unlisted. -/
def Memory.wfFrom (lo : Nat) : Memory → Bool
  | [] => true
  | (k, b) :: rest =>
    decide (lo ≤ k) && decide (k < Config.memSize) && b != initialByte k && Memory.wfFrom (k + 1) rest

/-- The canonical form of memory. -/
def Memory.wf (m : Memory) : Bool := Memory.wfFrom 0 m

end Sys2Proof.Machine
end

