-- ==== Sys2Proof/Machine/Operands.lean ====
section
/-! DEFINITION. Operands: the general registers, the first registers as a sequence, the immediates (always zero-extended, 00_scope.md R9), the inputs of the tick and the two queries of the key state. -/

namespace Sys2Proof.Machine

/-- Read `V[r]` (R20). -/
def State.reg (s : State) (r : Reg) : Byte := s.v[r.val]

/-- Write `V[r]`; no register is hardwired (R20). -/
def State.setReg (s : State) (r : Reg) (b : Byte) : State := { s with v := s.v.set r.val b }

/-- `V[0]..V[x]`, `x` inclusive, register 0 first (R184). -/
def State.regsUpTo (s : State) (x : Reg) : List Byte := s.v.toList.take (x.val + 1)

/-- Write `bytes` to the registers from number `k` on, ascending (R185). -/
def setRegsFrom (k : Nat) : List Byte → Vector Byte 16 → Vector Byte 16
  | [], v => v
  | b :: rest, v => setRegsFrom (k + 1) rest (v.setIfInBounds k b)

/-- `zext_16` of the field `nnn` (R83). -/
def zextAddr (nnn : Addr12) : Word := nnn.setWidth 16

/-- `zext_16` of a byte (R83). -/
def zextByte (b : Byte) : Word := b.setWidth 16

/-- The effective address `I + k` as a mathematical integer (R186). -/
def State.dataAddr (s : State) (k : Nat) : Nat := s.i.toNat + k

/-- The inputs of the coming tick: the oldest supplied one, else the free values for the tick's number
(R110, R220, R164; decisions D14, D15, D22; log entry 1). -/
def State.input (s : State) : TickInput :=
  match s.inputs with
  | [] => { keys := Config.keyState s.tickNo, rnd := Config.randomByte s.tickNo }
  | t :: _ => t

/-- `Rnd()`, the random byte of the tick (R164). -/
def State.randomInput (s : State) : Byte := s.input.rnd

/-- `KeyDown(k)` (R220). -/
def keyDown (keys : BitVec 16) (k : Nat) : Bool := keys.getLsbD k

/-- The pressed keys, by number. -/
def pressedKeys (keys : BitVec 16) : List Reg :=
  (List.finRange 16).filter fun k => keyDown keys k.val

/-- `AnyKey()` (R224): none if no key is pressed, the pressed key if it is the only one, else the one
among the pressed keys that the free value `Config.keyChoice` points to (`KeySelect`, OPEN; log entry 3). -/
def anyKey (keys : BitVec 16) : Option (Fin 16) :=
  match pressedKeys keys with
  | [] => none
  | [k] => some k
  | k :: ks => some ((k :: ks).getD (Config.keyChoice keys % (ks.length + 1)) k)

/-- The value Fx0A stores for key `k` (R223). -/
def keyValue (k : Fin 16) : Byte := BitVec.ofNat 8 k.val

end Sys2Proof.Machine
end

