-- ==== Sys2Proof/Machine/Flags.lean ====
section
/-! DEFINITION. The flag computations and the results that go with them, from the operand values alone; the order of the two writes (10_state.md R22; 42_alu.md R150, R157 to R162). -/

namespace Sys2Proof.Machine

/-- A flag as the byte that `VF` receives: 1 or 0 (R22). -/
def flagByte (b : Bool) : Byte := if b then 0x01#8 else 0x00#8

/-- 8xy4: 1 if the 9-bit sum exceeds 255 (R157). -/
def carryFlag (a b : Byte) : Bool := decide (255 < a.toNat + b.toNat)

/-- 8xy5 and, with the operands exchanged, 8xy7: 1 if `a > b`, strictly (R158, R160). -/
def greaterFlag (a b : Byte) : Bool := decide (b.toNat < a.toNat)

/-- 8xy6: bit 0 of the operand (R159). -/
def lowBitFlag (a : Byte) : Bool := a.getLsbD 0

/-- 8xyE: bit 7 of the operand (R161). -/
def highBitFlag (a : Byte) : Bool := a.getLsbD 7

/-- The two writes of 8xy4, 8xy5, 8xy6, 8xy7, 8xyE, in their order: `VF` with the flag, then `V[x]` with
the result, which wins when `x` is 15 (R150; decision D6, log entry 11). -/
def State.setFlagThenReg (s : State) (flag : Bool) (x : Reg) (result : Byte) : State :=
  (s.setReg flagReg (flagByte flag)).setReg x result

end Sys2Proof.Machine
end

