-- ==== Sys2Proof/Machine/Ops.lean ====
section
/-! DEFINITION. The named operations: raising a fault, bounded memory access, the fetch, the program counter, the stack, the timers, the framebuffer, the end of a tick. -/

namespace Sys2Proof.Machine

/-- What a meaning answers. -/
abbrev Result := Host.Outcome State Fault Refusal

/-- `raise E(info)`: the tick ends at once, nothing is saved, no state is left (R240, R249, R250). The
machine has no handler and no return from a fault (R251), so this is the whole of taking an exception. -/
def raise (f : Fault) : Result := .fault f

/-- Go on with a value, or raise the fault in its place. -/
def orRaise {α : Type} (r : Except Fault α) (k : α → Result) : Result :=
  match r with
  | .ok a => k a
  | .error f => raise f

/-! The codes of the faults (R241, decision D12; log entry 15). -/

/-- The cause code (R241). -/
def Fault.code : Fault → Nat
  | .decodeError _ => 1
  | .stackOverflow => 2
  | .stackUnderflow => 3
  | .memoryBounds _ => 4
  | .keyIndex _ => 5

/-- The `info` field, where the fault has one (R241). -/
def Fault.info : Fault → Option Nat
  | .decodeError w => some w.toNat
  | .stackOverflow => none
  | .stackUnderflow => none
  | .memoryBounds a => some a
  | .keyIndex b => some b.toNat

/-! Memory (R57, R58). -/

/-- `MemRead(a, 1)`: a MemoryBoundsError above 0xFFF (R57). -/
def State.readByte (s : State) (a : Nat) : Except Fault Byte :=
  if a < Config.memSize then .ok (s.mem.read a) else .error (.memoryBounds a)

/-- `MemWrite(a, 1, b)`: a MemoryBoundsError above 0xFFF (R57). -/
def State.writeByte (s : State) (a : Nat) (b : Byte) : Except Fault State :=
  if a < Config.memSize then .ok { s with mem := s.mem.write a b } else .error (.memoryBounds a)

/-- Read `n` bytes one by one at ascending addresses from `a` (R58). -/
def State.readBytes (s : State) : Nat → Nat → Except Fault (List Byte)
  | _, 0 => .ok []
  | a, n + 1 =>
    match s.readByte a with
    | .error f => .error f
    | .ok b =>
      match s.readBytes (a + 1) n with
      | .error f => .error f
      | .ok rest => .ok (b :: rest)

/-- Write bytes one by one at ascending addresses from `a` (R58). A fault part way leaves no state, so
whether the earlier bytes were written is not observable (R250). -/
def State.writeBytes (s : State) : Nat → List Byte → Except Fault State
  | _, [] => .ok s
  | a, b :: rest =>
    match s.writeByte a b with
    | .error f => .error f
    | .ok t => t.writeBytes (a + 1) rest

/-- T1, `MemRead(pc, 2)`, big-endian, at any parity (R55, R56, R111); the fault names `pc` itself. -/
def State.fetchWord (s : State) : Except Fault Word :=
  if s.pc.toNat + 1 < Config.memSize then
    .ok (wordOfBytes (s.mem.read s.pc.toNat) (s.mem.read (s.pc.toNat + 1)))
  else .error (.memoryBounds s.pc.toNat)

/-! The program counter (R112). -/

/-- T2: `pc <- pc + 2` (R112). -/
def State.advancePc (s : State) : State := { s with pc := s.pc + 2#16 }

/-- `skip`: 2 more, on top of T2 (R133, 00_scope.md §4.1). -/
def State.skip (s : State) : State := { s with pc := s.pc + 2#16 }

/-- `skip` if the condition holds. -/
def State.skipIf (s : State) (c : Bool) : State := if c then s.skip else s

/-- Put `pc` back to the instruction's own address (R223). -/
def State.rewindPc (s : State) : State := { s with pc := s.pc - 2#16 }

/-- `pc <- target`, unchecked (R138). -/
def State.jumpTo (s : State) (target : Word) : State := { s with pc := target }

/-! The stack (R26; decision D20, log entry 19). -/

/-- Push: StackOverflow at `SP = 16`, before anything is written (R26, R132). -/
def State.push (s : State) (w : Word) : Except Fault State :=
  if h : s.sp.val < 16 then
    .ok { s with stack := s.stack.set s.sp.val w, sp := ⟨s.sp.val + 1, by omega⟩ }
  else .error .stackOverflow

/-- Pop: StackUnderflow at `SP = 0`; the entry keeps its contents (R26, R130). -/
def State.pop (s : State) : Except Fault (Word × State) :=
  if h : 0 < s.sp.val then
    .ok (s.stack[s.sp.val - 1]'(by omega), { s with sp := ⟨s.sp.val - 1, by omega⟩ })
  else .error .stackUnderflow

/-! The timers (R27). -/

/-- One timer's decrement: toward zero, never below it (R27). -/
def countDown (t : Byte) : Byte := if t = 0x00#8 then 0x00#8 else t - 0x01#8

/-- T6: both timers (R116). -/
def State.tickTimers (s : State) : State := { s with dt := countDown s.dt, st := countDown s.st }

/-! The framebuffer (R200 to R205). -/

/-- All pixels off (R201). -/
def blankScreen : Framebuffer := Vector.replicate 32 (Vector.replicate 64 false)

/-- `FB[py][px]` (R200). -/
def pixel (fb : Framebuffer) (py : Fin 32) (px : Fin 64) : Bool := fb[py.val][px.val]

/-- `FB[py][px] <- FB[py][px] ^ 1` (R203). -/
def togglePixel (fb : Framebuffer) (py : Fin 32) (px : Fin 64) : Framebuffer :=
  fb.set py.val (fb[py.val].set px.val (!fb[py.val][px.val]))

/-- The row a sprite's row `r` falls on: `(y0 + r) mod 32`, never clipped (R203, R205). -/
def wrapRow (y0 r : Nat) : Fin 32 := ⟨(y0 + r) % 32, by omega⟩

/-- The column a sprite's bit `c` falls on: `(x0 + c) mod 64`, never clipped (R203, R205). -/
def wrapCol (x0 c : Nat) : Fin 64 := ⟨(x0 + c) % 64, by omega⟩

/-- What a draw has made so far: the framebuffer and whether any pixel collided (R203). -/
abbrev Canvas := Framebuffer × Bool

/-- One source bit on its pixel: 0 leaves it alone; 1 records a collision if the pixel is on, then
toggles it (R203). -/
def drawBit (bit : Bool) (py : Fin 32) (px : Fin 64) (c : Canvas) : Canvas :=
  if bit then (togglePixel c.1 py px, c.2 || pixel c.1 py px) else c

/-- The first `m` bits of a sprite row on row `py`, most significant bit first (R203). -/
def drawBits (b : Byte) (x0 : Nat) (py : Fin 32) : Nat → Canvas → Canvas
  | 0, c => c
  | m + 1, c => drawBit (b.getLsbD (7 - m)) py (wrapCol x0 m) (drawBits b x0 py m c)

/-- The rows of a sprite from row number `r` on (R203). -/
def drawRows (x0 y0 : Nat) : Nat → List Byte → Canvas → Canvas
  | _, [], c => c
  | r, b :: rest, c => drawRows x0 y0 (r + 1) rest (drawBits b x0 (wrapRow y0 r) 8 c)

/-- `Draw(x0, y0, sprite)` (R203). -/
def draw (x0 y0 : Nat) (sprite : List Byte) (fb : Framebuffer) : Canvas :=
  drawRows x0 y0 0 sprite (fb, false)

/-! Keys (R221; decision D7, log entry 12). -/

/-- The key number a register names: KeyIndexError above 15 (R221, R222). -/
def keyNumber (b : Byte) : Except Fault Nat :=
  if b.toNat ≤ 15 then .ok b.toNat else .error (.keyIndex b)

/-- Is the key that `V[x]` names down at this tick (R221)? -/
def State.keyQuery (s : State) (x : Reg) : Except Fault Bool :=
  match keyNumber (s.reg x) with
  | .ok k => .ok (keyDown s.input.keys k)
  | .error f => .error f

/-! The end of a tick. -/

/-- The tick's inputs are used up; the next tick sees the next ones (R110, D22; log entry 1). -/
def State.nextInput (s : State) : State := { s with inputs := s.inputs.tail, tickNo := s.tickNo + 1 }

end Sys2Proof.Machine
end

