-- ==== Sys2Proof/Machine/Alu.lean ====
section
/-! DEFINITION. Meanings: register loads, arithmetic, logic, shifts, random (42_alu.md). Operands are read before any register is written (R150). -/

namespace Sys2Proof.Machine

/-- LD Vx, kk, 6xkk (R151). -/
def execLdImm (x : Reg) (kk : Byte) (s : State) : Result := .next (s.setReg x kk)

/-- ADD Vx, kk, 7xkk: modulo 256, no flag (R152). -/
def execAddImm (x : Reg) (kk : Byte) (s : State) : Result := .next (s.setReg x (s.reg x + kk))

/-- LD Vx, Vy, 8xy0 (R153). -/
def execLdReg (x y : Reg) (s : State) : Result := .next (s.setReg x (s.reg y))

/-- OR, 8xy1: `VF` keeps its value (R154). -/
def execOrReg (x y : Reg) (s : State) : Result := .next (s.setReg x (s.reg x ||| s.reg y))

/-- AND, 8xy2: `VF` keeps its value (R155). -/
def execAndReg (x y : Reg) (s : State) : Result := .next (s.setReg x (s.reg x &&& s.reg y))

/-- XOR, 8xy3: `VF` keeps its value (R156). -/
def execXorReg (x y : Reg) (s : State) : Result := .next (s.setReg x (s.reg x ^^^ s.reg y))

/-- ADD Vx, Vy, 8xy4 (R157). -/
def execAddReg (x y : Reg) (s : State) : Result :=
  .next (s.setFlagThenReg (carryFlag (s.reg x) (s.reg y)) x (s.reg x + s.reg y))

/-- SUB, 8xy5 (R158). -/
def execSubReg (x y : Reg) (s : State) : Result :=
  .next (s.setFlagThenReg (greaterFlag (s.reg x) (s.reg y)) x (s.reg x - s.reg y))

/-- SHR, 8xy6: `V[x]` in place, `y` ignored (R88, R159; decision D5, log entry 10). -/
def execShr (x _y : Reg) (s : State) : Result :=
  .next (s.setFlagThenReg (lowBitFlag (s.reg x)) x (s.reg x >>> 1))

/-- SUBN, 8xy7 (R160). -/
def execSubn (x y : Reg) (s : State) : Result :=
  .next (s.setFlagThenReg (greaterFlag (s.reg y) (s.reg x)) x (s.reg y - s.reg x))

/-- SHL, 8xyE: `V[x]` in place, `y` ignored (R88, R161; decision D5, log entry 10). -/
def execShl (x _y : Reg) (s : State) : Result :=
  .next (s.setFlagThenReg (highBitFlag (s.reg x)) x (s.reg x <<< 1))

/-- RND, Cxkk (R164). -/
def execRnd (x : Reg) (kk : Byte) (s : State) : Result := .next (s.setReg x (s.randomInput &&& kk))

end Sys2Proof.Machine
end

