-- ==== Sys2Proof/Machine/Control.lean ====
section
/-! DEFINITION. Meanings: HALT, SYS and control transfer (40_tick.md R118, R119; 41_control_flow.md). A meaning is phase T5 of the tick: `pc` is already the instruction's address plus 2 (R112), and the timers are not yet decremented (R116). -/

namespace Sys2Proof.Machine

/-- HALT, 0000: "performs no operation" (R118). That the tick reports `Halt` and leaves the timers alone
is in `Machine.tick`. -/
def execHalt (s : State) : Result := .next s

/-- SYS, 0nnn: nothing; `nnn` is ignored (R119). -/
def execSys (_nnn : Addr12) (s : State) : Result := .next s

/-- RET, 00EE (R130). -/
def execRet (s : State) : Result := orRaise s.pop fun p => .next (p.2.jumpTo p.1)

/-- JP, 1nnn (R131). -/
def execJp (nnn : Addr12) (s : State) : Result := .next (s.jumpTo (zextAddr nnn))

/-- CALL, 2nnn: the pushed `pc` is the address of the CALL plus 2 (R132). -/
def execCall (nnn : Addr12) (s : State) : Result :=
  orRaise (s.push s.pc) fun t => .next (t.jumpTo (zextAddr nnn))

/-- SE Vx, kk, 3xkk (R133). -/
def execSeImm (x : Reg) (kk : Byte) (s : State) : Result := .next (s.skipIf (s.reg x == kk))

/-- SNE Vx, kk, 4xkk (R134). -/
def execSneImm (x : Reg) (kk : Byte) (s : State) : Result := .next (s.skipIf (s.reg x != kk))

/-- SE Vx, Vy, 5xy0 (R135). -/
def execSeReg (x y : Reg) (s : State) : Result := .next (s.skipIf (s.reg x == s.reg y))

/-- SNE Vx, Vy, 9xy0 (R136). -/
def execSneReg (x y : Reg) (s : State) : Result := .next (s.skipIf (s.reg x != s.reg y))

/-- JP V0, nnn, Bnnn: always register 0; the sum is not reduced (R137). -/
def execJpV0 (nnn : Addr12) (s : State) : Result :=
  .next (s.jumpTo (zextAddr nnn + zextByte (s.reg 0)))

end Sys2Proof.Machine
end

