-- ==== Sys2Proof/Machine/Display.lean ====
section
/-! DEFINITION. Meanings: clear and draw (44_display.md). -/

namespace Sys2Proof.Machine

/-- CLS, 00E0 (R201). -/
def execCls (s : State) : Result := .next { s with fb := blankScreen }

/-- DRW, Dxyn: the coordinates and the `n` bytes at `I` are read first, `VF` is written last, on every
draw (R202; decision D24, log entry 22). -/
def execDrw (x y : Reg) (n : Fin 16) (s : State) : Result :=
  orRaise (s.readBytes (s.dataAddr 0) n.val) fun sprite =>
    let c := draw (s.reg x).toNat (s.reg y).toNat sprite s.fb
    .next (State.setReg { s with fb := c.1 } flagReg (flagByte c.2))

end Sys2Proof.Machine
end

