-- ==== Sys2Proof/Machine/Index.lean ====
section
/-! DEFINITION. Meanings: the index register, BCD, register store and load (43_index_memory.md). None but 8-bit data is stored; `I` never moves (R186; decision D18, log entry 17). -/

namespace Sys2Proof.Machine

/-- LD I, nnn, Annn (R180). -/
def execLdI (nnn : Addr12) (s : State) : Result := .next { s with i := zextAddr nnn }

/-- ADD I, Vx, Fx1E: modulo 65536, no flag (R181; decision D9, log entry 13). -/
def execAddI (x : Reg) (s : State) : Result := .next { s with i := s.i + zextByte (s.reg x) }

/-- LD F, Vx, Fx29: `(V[x] & 0xF) * 5` (R182). -/
def execLdF (x : Reg) (s : State) : Result :=
  .next { s with i := zextByte (s.reg x &&& 0x0F#8) * 5#16 }

/-- The three decimal digits of a byte, most significant first (R183). -/
def bcdDigits (b : Byte) : List Byte :=
  [BitVec.ofNat 8 (b.toNat / 100), BitVec.ofNat 8 (b.toNat / 10 % 10), BitVec.ofNat 8 (b.toNat % 10)]

/-- LD B, Vx, Fx33 (R183). -/
def execLdB (x : Reg) (s : State) : Result :=
  orRaise (s.writeBytes (s.dataAddr 0) (bcdDigits (s.reg x))) fun t => .next t

/-- LD [I], Vx, Fx55: `V[0]..V[x]`, `x` inclusive (R184). -/
def execLdMemVx (x : Reg) (s : State) : Result :=
  orRaise (s.writeBytes (s.dataAddr 0) (s.regsUpTo x)) fun t => .next t

/-- LD Vx, [I], Fx65: `V[0]..V[x]`, `x` inclusive (R185). -/
def execLdVxMem (x : Reg) (s : State) : Result :=
  orRaise (s.readBytes (s.dataAddr 0) (x.val + 1)) fun bytes =>
    .next { s with v := setRegsFrom 0 bytes s.v }

end Sys2Proof.Machine
end

