-- ==== Sys2Proof/Machine/Keys.lean ====
section
/-! DEFINITION. Meanings: key skips, wait for key, timer transfers (45_keys_timers.md). -/

namespace Sys2Proof.Machine

/-- SKP, Ex9E (R221). -/
def execSkp (x : Reg) (s : State) : Result :=
  orRaise (s.keyQuery x) fun down => .next (s.skipIf down)

/-- SKNP, ExA1 (R222). -/
def execSknp (x : Reg) (s : State) : Result :=
  orRaise (s.keyQuery x) fun down => .next (s.skipIf (!down))

/-- LD Vx, K, Fx0A: a pressed key's number, else `pc` goes back and the tick still completes (R223). -/
def execLdVxK (x : Reg) (s : State) : Result :=
  .next (match anyKey s.input.keys with
    | some k => s.setReg x (keyValue k)
    | none => s.rewindPc)

/-- LD Vx, DT, Fx07: the value before this tick's decrement (R225). -/
def execLdVxDt (x : Reg) (s : State) : Result := .next (s.setReg x s.dt)

/-- LD DT, Vx, Fx15 (R226). -/
def execLdDtVx (x : Reg) (s : State) : Result := .next { s with dt := s.reg x }

/-- LD ST, Vx, Fx18 (R227). -/
def execLdStVx (x : Reg) (s : State) : Result := .next { s with st := s.reg x }

end Sys2Proof.Machine
end

