-- ==== Sys2Proof/Machine/Tick.lean ====
section
/-! DEFINITION. The tick: fetch, advance, decode, execute, timers; its report to the driver; a run and its end (40_tick.md R110 to R118; 70_reset_and_hazards.md R285). -/

namespace Sys2Proof.Machine

/-- What a tick that does not fault reports to the driver beside the next state (R117; log entry 8). -/
inductive TickReport where
  /-- a legal instruction other than 0x0000 was executed -/
  | ok
  /-- the fetched word was 0x0000 (R118, R252) -/
  | halt
  deriving DecidableEq, Repr

/-- The outcome of a tick (R117): the report with the next state, or a fault. -/
abbrev TickOutcome := Host.Outcome (TickReport × State) Fault Refusal

/-- `Halt` for the sentinel, `Ok` for every other instruction (R117, R118). -/
def reportOf (i : Instr) : TickReport := if i = .halt then .halt else .ok

/-- What a tick does after the instruction: T6, but in a `Halt` tick the timers stand still (R116, R118);
then the tick's inputs are used up. -/
def finishTick (report : TickReport) (s : State) : State :=
  match report with
  | .ok => s.tickTimers.nextInput
  | .halt => s.nextInput

/-- Phases T2, T5 and T6 for the decoded instruction (R110). -/
def tickInstr (i : Instr) (s : State) : TickOutcome :=
  match exec i s.advancePc with
  | .next t => .next (reportOf i, finishTick (reportOf i) t)
  | .fault f => .fault f
  | .refused r => .refused r

/-- The tick (R110): fetch bounds first, then decode, then the instruction (R247). -/
def tick (s : State) : TickOutcome :=
  match s.fetchWord with
  | .error f => .fault f
  | .ok w =>
    match decode w with
    | none => .fault (.decodeError w)
    | some i => tickInstr i s

/-- The next state without the report. -/
def dropReport : TickOutcome → Result
  | .next p => .next p.2
  | .fault f => .fault f
  | .refused r => .refused r

/-- Put a word where the fetch reads the next instruction, high byte first (R55, R111). Where `pc` is
above 0x0FFE nothing can be fetched and nothing is written (log entry 20). -/
def State.placeWord (s : State) (w : Word) : State :=
  if s.pc.toNat + 1 < Config.memSize then
    { s with mem := (s.mem.write s.pc.toNat (hiByte w)).write (s.pc.toNat + 1) (loByte w) }
  else s

/-- How a sequence of ticks stands or ended (R285). -/
inductive RunEnd where
  /-- the driver stopped ticking; the program has not finished -/
  | unfinished (s : State)
  /-- normal end: the first tick whose outcome was `Halt`, with the state it left -/
  | halted (s : State)
  /-- fatal end: no final state -/
  | faulted (f : Fault)
  /-- an instruction without a meaning (none is left) -/
  | refused (r : Refusal)
  deriving DecidableEq, Repr

/-- At most `k` ticks, ending at the first `Halt` or fault (R285; decision D23, log entry 21). -/
def runTicks : Nat → State → RunEnd
  | 0, s => .unfinished s
  | k + 1, s =>
    match tick s with
    | .next (.ok, t) => runTicks k t
    | .next (.halt, t) => .halted t
    | .fault f => .faulted f
    | .refused r => .refused r

end Sys2Proof.Machine
end

