-- ==== Sys2Proof/Machine/Step.lean ====
section
/-! DEFINITION. The step of the machine is one tick (40_tick.md R110), and where a table word is put for it to fetch. -/

namespace Sys2Proof.Machine

/-- One tick, without its report (R110, R117). -/
def step (s : State) : Host.Outcome State Fault Refusal := dropReport (tick s)

/-- `s` with the 16-bit word whose low `nbits` bits are `w`'s stored at `pc`, where the next tick fetches
it (R55, R111; log entry 20). -/
def State.withFetchWord (s : State) (nbits w : Nat) : State :=
  s.placeWord (BitVec.ofNat 16 (w % 2 ^ nbits))

end Sys2Proof.Machine
end

