-- ==== Sys2Proof/Machine/Boot.lean ====
section
/-! DEFINITION. The program load before the first tick (70_reset_and_hazards.md R272; decision D19, log entry 18). The loader that makes the bytes is outside the core (00_scope.md R4). -/

namespace Sys2Proof.Machine

/-- Write bytes to memory at ascending addresses from `a`. -/
def Memory.loadFrom : Memory → Nat → List Byte → Memory
  | m, _, [] => m
  | m, a, b :: rest => Memory.loadFrom (m.write a b) (a + 1) rest

/-- `MEM[0x200 + i] <- rom[i]`; a program of more than 3583 bytes is rejected before any byte is
written, and there is no machine to run (R272; 90_conflicts.md C3). -/
def State.load (s : State) (rom : List Byte) : Option State :=
  if rom.length ≤ Config.maxRom then
    some { s with mem := s.mem.loadFrom Config.programBase rom }
  else none

/-- The state at the first tick: reset, then the load (R270). -/
def boot (rom : List Byte) : Option State := State.reset.load rom

end Sys2Proof.Machine
end

