-- ==== Sys2Proof/Safety.lean ====
section
/-! DEFINITION. The terms that claims about the machine use: what stays unchanged, the words of a pattern, when an instruction faults, the pixels a sprite covers, the invariant, a safe run. Nothing of the machine is defined by these. -/

namespace Sys2Proof.Machine

/-! What stays unchanged. -/

/-- Every byte of memory reads as before. -/
def MemSame (s t : State) : Prop := ∀ a : Nat, t.mem.read a = s.mem.read a

/-- Every byte of memory outside the `n` bytes from `base` reads as before. -/
def MemSameOutside (base n : Nat) (s t : State) : Prop :=
  ∀ a : Nat, a < base ∨ base + n ≤ a → t.mem.read a = s.mem.read a

/-- Every general register is as before. -/
def RegsSame (s t : State) : Prop := ∀ r : Reg, t.reg r = s.reg r

/-- Every general register but `x` is as before. -/
def RegsSameBut (x : Reg) (s t : State) : Prop := ∀ r : Reg, r ≠ x → t.reg r = s.reg r

/-- Every general register but `x` and the flag register is as before. -/
def RegsSameButFlag (x : Reg) (s t : State) : Prop :=
  ∀ r : Reg, r ≠ x → r ≠ flagReg → t.reg r = s.reg r

/-- The stack and its pointer are as before. -/
def StackSame (s t : State) : Prop := t.stack = s.stack ∧ t.sp = s.sp

/-- Both timers are as before. -/
def TimersSame (s t : State) : Prop := t.dt = s.dt ∧ t.st = s.st

/-- Every pixel is as before. -/
def ScreenSame (s t : State) : Prop :=
  ∀ (py : Fin 32) (px : Fin 64), pixel t.fb py px = pixel s.fb py px

/-- The inputs still to come are as before. -/
def InputsSame (s t : State) : Prop := t.inputs = s.inputs ∧ t.tickNo = s.tickNo

/-- All but the general registers is as before, `I` and `pc` too. -/
def OnlyRegs (s t : State) : Prop :=
  t.i = s.i ∧ t.pc = s.pc ∧ StackSame s t ∧ TimersSame s t ∧ MemSame s t ∧ ScreenSame s t ∧
    InputsSame s t

/-- All but `pc` is as before. -/
def OnlyPc (s t : State) : Prop :=
  RegsSame s t ∧ t.i = s.i ∧ StackSame s t ∧ TimersSame s t ∧ MemSame s t ∧ ScreenSame s t ∧
    InputsSame s t

/-- All but `I` is as before. -/
def OnlyIndex (s t : State) : Prop :=
  RegsSame s t ∧ t.pc = s.pc ∧ StackSame s t ∧ TimersSame s t ∧ MemSame s t ∧ ScreenSame s t ∧
    InputsSame s t

/-- All but memory is as before. -/
def OnlyMem (s t : State) : Prop :=
  RegsSame s t ∧ t.i = s.i ∧ t.pc = s.pc ∧ StackSame s t ∧ TimersSame s t ∧ ScreenSame s t ∧
    InputsSame s t

/-- All but `pc` and the stack is as before. -/
def OnlyPcStack (s t : State) : Prop :=
  RegsSame s t ∧ t.i = s.i ∧ TimersSame s t ∧ MemSame s t ∧ ScreenSame s t ∧ InputsSame s t

/-- All but the timers is as before. -/
def OnlyTimers (s t : State) : Prop :=
  RegsSame s t ∧ t.i = s.i ∧ t.pc = s.pc ∧ StackSame s t ∧ MemSame s t ∧ ScreenSame s t ∧
    InputsSame s t

/-- All but the framebuffer and the general registers is as before. -/
def OnlyScreenAndRegs (s t : State) : Prop :=
  t.i = s.i ∧ t.pc = s.pc ∧ StackSame s t ∧ TimersSame s t ∧ MemSame s t ∧ InputsSame s t

/-! The words of a pattern of R85, as numbers: `op`, then the fields by their weights (R81). -/

/-- The word `op x y n`. -/
def wordXyn (op : Nat) (x y : Reg) (n : Nat) : Word :=
  BitVec.ofNat 16 (0x1000 * op + 0x100 * x.val + 0x10 * y.val + n)

/-- The word `op x kk`. -/
def wordXkk (op : Nat) (x : Reg) (kk : Nat) : Word :=
  BitVec.ofNat 16 (0x1000 * op + 0x100 * x.val + kk)

/-- The word `op nnn`. -/
def wordNnn (op : Nat) (nnn : Addr12) : Word := BitVec.ofNat 16 (0x1000 * op + nnn.toNat)

/-! When an instruction faults, in the terms of R241 and R247. -/

/-- The fault of accessing `n` bytes from `I` on: the first address above 0xFFF (R57). -/
def boundsFault (s : State) (n : Nat) : Option Fault :=
  if 0 < n ∧ 0x1000 < s.i.toNat + n then some (.memoryBounds (max s.i.toNat 0x1000)) else none

/-- The fault of naming a key above 15 (R246). -/
def keyFault (s : State) (x : Reg) : Option Fault :=
  if 15 < (s.reg x).toNat then some (.keyIndex (s.reg x)) else none

/-- The fault an instruction raises in a state, if any (R247). -/
def faultOf (i : Instr) (s : State) : Option Fault :=
  match i with
  | .call _ => if s.sp.val = 16 then some .stackOverflow else none
  | .ret => if s.sp.val = 0 then some .stackUnderflow else none
  | .drw _ _ n => boundsFault s n.val
  | .ldB _ => boundsFault s 3
  | .ldMemVx x => boundsFault s (x.val + 1)
  | .ldVxMem x => boundsFault s (x.val + 1)
  | .skp x => keyFault s x
  | .sknp x => keyFault s x
  | _ => none

/-! Who writes what (R21 to R25, R29, R60). -/

/-- The instructions that store to memory (R60). -/
def storesToMemory : Instr → Bool
  | .ldB _ => true
  | .ldMemVx _ => true
  | _ => false

/-- The instructions that touch the stack (R25). -/
def touchesStack : Instr → Bool
  | .call _ => true
  | .ret => true
  | _ => false

/-- The instructions that write the framebuffer (R29). -/
def writesScreen : Instr → Bool
  | .cls => true
  | .drw _ _ _ => true
  | _ => false

/-- The instructions that write `I` (R23). -/
def writesIndex : Instr → Bool
  | .ldI _ => true
  | .addI _ => true
  | .ldF _ => true
  | _ => false

/-- The instruction that writes the sound timer (R27). -/
def loadsSoundTimer : Instr → Bool
  | .ldStVx _ => true
  | _ => false

/-- The general registers an instruction may write: its destination (R21), and `VF` where R22 lists it. -/
def mayWriteReg : Instr → Reg → Bool
  | .ldImm x _, r | .addImm x _, r | .ldReg x _, r | .orReg x _, r | .andReg x _, r | .xorReg x _, r
  | .rnd x _, r | .ldVxDt x, r | .ldVxK x, r => r == x
  | .addReg x _, r | .subReg x _, r | .shr x _, r | .subn x _, r | .shl x _, r => r == x || r == flagReg
  | .drw _ _ _, r => r == flagReg
  | .ldVxMem x, r => decide (r ≤ x)
  | _, _ => false

/-- The instructions that query the key state (R256). -/
def usesKeys : Instr → Bool
  | .skp _ => true
  | .sknp _ => true
  | .ldVxK _ => true
  | _ => false

/-- The instruction that takes the random byte (R256). -/
def usesRandom : Instr → Bool
  | .rnd _ _ => true
  | _ => false

/-- The same state with other inputs to come. -/
def State.withInputs (s : State) (ins : List TickInput) (n : Nat) : State :=
  { s with inputs := ins, tickNo := n }

/-- A change of the next state, if there is one. -/
def onNext (f : State → State) : Result → Result
  | .next t => .next (f t)
  | .fault e => .fault e
  | .refused r => .refused r

/-! `pc` after a tick (R24), as a number: `a` is the address of the instruction, `s` the state at the
start of the tick. -/

/-- Where a skip goes. -/
def skipTarget (a : Nat) (c : Bool) : Nat := if c then a + 4 else a + 2

/-- The table of R24. -/
def pcAfter (i : Instr) (a : Nat) (s : State) : Nat :=
  match i with
  | .jp nnn => nnn.toNat
  | .call nnn => nnn.toNat
  | .ret => if h : 0 < s.sp.val then (s.stack[s.sp.val - 1]'(by omega)).toNat else 0
  | .jpV0 nnn => nnn.toNat + (s.reg 0).toNat
  | .seImm x kk => skipTarget a (s.reg x == kk)
  | .sneImm x kk => skipTarget a (s.reg x != kk)
  | .seReg x y => skipTarget a (s.reg x == s.reg y)
  | .sneReg x y => skipTarget a (s.reg x != s.reg y)
  | .skp x => skipTarget a (s.input.keys.getLsbD (s.reg x).toNat)
  | .sknp x => skipTarget a (!s.input.keys.getLsbD (s.reg x).toNat)
  | .ldVxK _ => if s.input.keys = 0#16 then a else a + 2
  | _ => a + 2

/-! The timers that T6 decrements (R116): what the instruction left in them. -/

/-- `DT` after T5. -/
def loadedDt (i : Instr) (s : State) : Byte :=
  match i with
  | .ldDtVx x => s.reg x
  | _ => s.dt

/-- `ST` after T5. -/
def loadedSt (i : Instr) (s : State) : Byte :=
  match i with
  | .ldStVx x => s.reg x
  | _ => s.st

/-! Pixels under a sprite (R203). -/

/-- A sprite drawn from column `x0` and row `y0` has an on bit over pixel (`px`, `py`): some row `r` and
bit `c`, most significant first, with coordinates modulo the screen. -/
def Covers (x0 y0 : Nat) (sprite : List Byte) (py : Fin 32) (px : Fin 64) : Prop :=
  ∃ r c : Nat, r < sprite.length ∧ c < 8 ∧ (x0 + c) % 64 = px.val ∧ (y0 + r) % 32 = py.val ∧
    (sprite.getD r 0).getLsbD (7 - c) = true

/-- The sprite of a draw: the `n` bytes from `I` on (R202). -/
def State.spriteAt (s : State) (n : Nat) : List Byte :=
  (List.range n).map fun r => s.mem.read (s.i.toNat + r)

/-! The invariant and safe runs. -/

/-- What every tick keeps: memory is in its canonical form; `pc` is at most 0x10FE (R24); every stack
entry is an address a CALL can have pushed, at most 0x1000. -/
def Inv (s : State) : Prop :=
  s.mem.wf = true ∧ s.pc.toNat ≤ 0x10FE ∧ ∀ k : Fin 16, s.stack[k.val].toNat ≤ 0x1000

/-- A run of at most `k` ticks without a fault (R250: "every claim about a program takes `no tick
faulted`"). -/
def SafeRun (k : Nat) (s : State) : Prop :=
  ∃ t, runTicks k s = .unfinished t ∨ runTicks k s = .halted t

/-- None of the first `k` ticks executes LD DT, Vx or HALT. -/
def LeavesDelayAlone : Nat → State → Prop
  | 0, _ => True
  | k + 1, s =>
    (∀ w, s.fetchWord = .ok w → decode w ≠ some .halt ∧ ∀ x, decode w ≠ some (.ldDtVx x)) ∧
      ∀ t, step s = .next t → LeavesDelayAlone k t

/-- `k` steps, to compare two states of a run. -/
def stepsTo : Nat → State → State → Prop
  | 0, s, t => s = t
  | k + 1, s, t => ∃ u, step s = .next u ∧ stepsTo k u t

/-- CALLs one after the other, each executed on the state the one before it left. -/
def execCalls : List Addr12 → State → Result
  | [], s => .next s
  | a :: rest, s =>
    match exec (.call a) s with
    | .next t => execCalls rest t
    | .fault f => .fault f
    | .refused r => .refused r

end Sys2Proof.Machine
end

