-- ==== Sys2Proof/Certificates/Slice0/Obligations.lean ====
section
/-! DEFINITION. The statements for the provers. `exec i s` is phase T5 of a tick: `s.pc` is the instruction's address plus 2 (R112) and the timers are decremented after it (R116); `step` and `tick` are whole ticks. Where a docstring names a decision D<n>, that clause is the spec's own choice (92_eei_decisions.md) and the statement is derived. -/

open Sys2Proof Sys2Proof.Machine

/-! ### Encoding -/

/-- One word of every row of R85 decodes to its instruction (words of 95_test_vectors.md and of the
rules' examples). -/
def Obligations.SpecWordsDecode : Prop :=
  decode 0x0000#16 = some .halt ∧ decode 0x00E0#16 = some .cls ∧ decode 0x00EE#16 = some .ret ∧
  decode 0x00E1#16 = some (.sys 0x0E1#12) ∧ decode 0x1ABC#16 = some (.jp 0xABC#12) ∧
  decode 0x2300#16 = some (.call 0x300#12) ∧ decode 0x342A#16 = some (.seImm 4 0x2A#8) ∧
  decode 0x4A7F#16 = some (.sneImm 10 0x7F#8) ∧ decode 0x5120#16 = some (.seReg 1 2) ∧
  decode 0x62FE#16 = some (.ldImm 2 0xFE#8) ∧ decode 0x730A#16 = some (.addImm 3 0x0A#8) ∧
  decode 0x8AF0#16 = some (.ldReg 10 15) ∧ decode 0x8121#16 = some (.orReg 1 2) ∧
  decode 0x8122#16 = some (.andReg 1 2) ∧ decode 0x8123#16 = some (.xorReg 1 2) ∧
  decode 0x8AB4#16 = some (.addReg 10 11) ∧ decode 0x8125#16 = some (.subReg 1 2) ∧
  decode 0x8346#16 = some (.shr 3 4) ∧ decode 0x8127#16 = some (.subn 1 2) ∧
  decode 0x834E#16 = some (.shl 3 4) ∧ decode 0x9120#16 = some (.sneReg 1 2) ∧
  decode 0xA21E#16 = some (.ldI 0x21E#12) ∧ decode 0xBF00#16 = some (.jpV0 0xF00#12) ∧
  decode 0xC30F#16 = some (.rnd 3 0x0F#8) ∧ decode 0xD125#16 = some (.drw 1 2 5) ∧
  decode 0xE29E#16 = some (.skp 2) ∧ decode 0xE2A1#16 = some (.sknp 2) ∧
  decode 0xF107#16 = some (.ldVxDt 1) ∧ decode 0xF90A#16 = some (.ldVxK 9) ∧
  decode 0xF015#16 = some (.ldDtVx 0) ∧ decode 0xF318#16 = some (.ldStVx 3) ∧
  decode 0xF21E#16 = some (.addI 2) ∧ decode 0xF429#16 = some (.ldF 4) ∧
  decode 0xF233#16 = some (.ldB 2) ∧ decode 0xF155#16 = some (.ldMemVx 1) ∧
  decode 0xF265#16 = some (.ldVxMem 2)

/-- Decoding the encoding of a well-formed instruction, as a word or as the first of a list of bytes,
gives it back with every operand (R80 to R85). -/
def Obligations.DecodeOfEncode : Prop :=
  ∀ i : Instr, i.wellFormed = true →
    decode (encode i) = some i ∧
    ∀ rest : List Byte, decodeBytes (encodeBytes i ++ rest) = .ok (i, rest)

/-- What a word decodes to encodes to that word, and is well-formed: no two words share an instruction,
and the ignored fields are kept (R84, R88, R89). -/
def Obligations.EncodeOfDecode : Prop :=
  ∀ (w : Word) (i : Instr), decode w = some i → encode i = w ∧ i.wellFormed = true

/-- The decoder takes the first row of R85 that selects the word, and none where no row does (R84). That
`5xy_` and `9xy_` need the low nibble 0 is decision D4. -/
def Obligations.DecodeTakesFirstMatchingRow : Prop :=
  ∀ w : Word, (decode w).map Instr.rowIndex = opcodeRows.findIdx? fun r => r.selects w

/-- The illegal words are exactly those that R86 lists, said of the word as a number; the rows for `5xy_`
and `9xy_` are decision D4. -/
def Obligations.IllegalWordsAreExactlyListed : Prop :=
  ∀ w : Word, decode w = none ↔
    (w.toNat / 0x1000 = 0x5 ∧ w.toNat % 0x10 ≠ 0) ∨
    (w.toNat / 0x1000 = 0x9 ∧ w.toNat % 0x10 ≠ 0) ∨
    (w.toNat / 0x1000 = 0x8 ∧ w.toNat % 0x10 ∈ [0x8, 0x9, 0xA, 0xB, 0xC, 0xD, 0xF]) ∨
    (w.toNat / 0x1000 = 0xE ∧ w.toNat % 0x100 ∉ [0x9E, 0xA1]) ∨
    (w.toNat / 0x1000 = 0xF ∧
      w.toNat % 0x100 ∉ [0x07, 0x0A, 0x15, 0x18, 0x1E, 0x29, 0x33, 0x55, 0x65])

/-! ### The tick -/

/-- A step runs the instruction that the two bytes at `pc` decode to, high byte first: it is `exec` on the
state with `pc` advanced by 2; after it both timers count down, but not after HALT; the tick's input is
used up. A fault of the instruction is the fault of the step (R110, R112, R116). Its HALT case, `pc`
advanced and the timers standing still, is decisions D3 and D25 (log entry 8, DESIGN CHOICE); that one
input of `inputs` is used up and `tickNo` counts is the model's own form of D14 and D22 (log entry 1,
DESIGN CHOICE). -/
def Obligations.StepRunsDecodedInstruction : Prop :=
  ∀ (s : State) (i : Instr), s.pc.toNat ≤ 0x0FFE →
    decode (BitVec.ofNat 16 (0x100 * (s.mem.read s.pc.toNat).toNat +
      (s.mem.read (s.pc.toNat + 1)).toNat)) = some i →
    (∀ t, exec i { s with pc := s.pc + 2#16 } = .next t →
      step s = .next { t with
        dt := if i = .halt then t.dt else countDown t.dt
        st := if i = .halt then t.st else countDown t.st
        inputs := t.inputs.tail
        tickNo := t.tickNo + 1 }) ∧
    (∀ f, exec i { s with pc := s.pc + 2#16 } = .fault f → step s = .fault f)

/-- A fetch with a byte of the pair outside memory is a MemoryBoundsError that names `pc`; a fetch inside
memory gives the two bytes big-endian, at any parity of `pc` (R55, R56, R111; the fault is decision D2,
the odd `pc` D21). -/
def Obligations.FetchReadsTwoBytesOrFaults : Prop :=
  ∀ s : State,
    (0x0FFE < s.pc.toNat → tick s = .fault (.memoryBounds s.pc.toNat) ∧
      step s = .fault (.memoryBounds s.pc.toNat)) ∧
    (s.pc.toNat ≤ 0x0FFE → ∃ w, s.fetchWord = .ok w ∧
      w.toNat = 0x100 * (s.mem.read s.pc.toNat).toNat + (s.mem.read (s.pc.toNat + 1)).toNat)

/-- Decode and dispatch (R114): the word 0x0000 ends the tick with `Halt`, and no other word does; a word
that no row of R85 selects is a fatal DecodeError that carries it; any other word runs its instruction. -/
def Obligations.DispatchFollowsTheTable : Prop :=
  ∀ (s : State) (w : Word), s.fetchWord = .ok w →
    (w = 0x0000#16 → ∃ t, tick s = .next (.halt, t)) ∧
    (∀ t, tick s = .next (.halt, t) → w = 0x0000#16) ∧
    ((∀ r ∈ opcodeRows, r.selects w = false) →
      tick s = .fault (.decodeError w) ∧ step s = .fault (.decodeError w)) ∧
    (∀ r ∈ opcodeRows, r.selects w = true → ∃ i, decode w = some i ∧ tick s = tickInstr i s)

/-- HALT does nothing, and the tick that fetches it reports `Halt`, advances `pc` by 2, leaves the timers
and everything else alone (R118). That `pc` moves is decision D3. -/
def Obligations.HaltTickOnlyAdvancesPc : Prop :=
  decode 0x0000#16 = some .halt ∧ (∀ s : State, exec .halt s = .next s) ∧
  ∀ s : State, s.fetchWord = .ok 0x0000#16 →
    ∃ t, tick s = .next (.halt, t) ∧ step s = .next t ∧ t.pc.toNat = s.pc.toNat + 2 ∧
      RegsSame s t ∧ t.i = s.i ∧ StackSame s t ∧ TimersSame s t ∧ MemSame s t ∧ ScreenSame s t

/-- T6 (R116): in every tick but a `Halt` tick both timers end one below what the instruction left in
them, and at 0 from 0; in a `Halt` tick they stand still (D3, D25). -/
def Obligations.TimersCountOkTicks : Prop :=
  ∀ (s t : State) (w : Word) (i : Instr), s.fetchWord = .ok w → decode w = some i →
    step s = .next t →
    (i ≠ .halt → t.dt.toNat = (loadedDt i s).toNat - 1 ∧ t.st.toNat = (loadedSt i s).toNat - 1) ∧
    (i = .halt → TimersSame s t)

/-- The table of R24: where `pc` is after each tick, as a number, so that it never wraps. The halt row is
decision D3, the width of `pc` D1, the index of the popped entry D20 (log entries 8, 6, 19). -/
def Obligations.PcAfterEveryTick : Prop :=
  ∀ (s t : State) (w : Word) (i : Instr), s.fetchWord = .ok w → decode w = some i →
    step s = .next t → t.pc.toNat = pcAfter i s.pc.toNat s

/-- The invariant holds after reset and after every load that is accepted. -/
def Obligations.InvAtFirstTick : Prop :=
  Inv State.reset ∧ ∀ (rom : List Byte) (s : State), boot rom = some s → Inv s

/-- Every tick keeps the invariant: memory in its canonical form, `pc` at most 0x10FE (R24), every stack
entry at most 0x1000. -/
def Obligations.StepKeepsInv : Prop :=
  ∀ s t : State, Inv s → step s = .next t → Inv t

/-- A step answers a next state exactly when the fetch is inside memory, the word is legal and its
instruction meets none of its fault conditions; it never refuses (R247, R284; the bounds are D2 and D7,
and that 5xyN and 9xyN are illegal is D4). -/
def Obligations.StepGoesOnExactlyWhen : Prop :=
  ∀ s : State,
    ((∃ t, step s = .next t) ↔
      s.pc.toNat ≤ 0x0FFE ∧ ∃ i,
        decode (wordOfBytes (s.mem.read s.pc.toNat) (s.mem.read (s.pc.toNat + 1))) = some i ∧
        faultOf i s = none) ∧
    ∀ r, step s ≠ .refused r

/-! ### Whole-machine rules -/

/-- Every instruction completes where it meets none of its fault conditions, and raises exactly the fault
of R241 and R247 where it does: StackOverflow by CALL alone, StackUnderflow by RET, MemoryBoundsError by
DRW, LD B, LD [I], LD Vx,[I] (D2), KeyIndexError by SKP and SKNP (D7), no other at all (D26). -/
def Obligations.ExecFaultsExactlyWhen : Prop :=
  ∀ (i : Instr) (s : State),
    (faultOf i s = none → ∃ t, exec i s = .next t) ∧
    (∀ f, faultOf i s = some f → exec i s = .fault f)

/-- No tick but one of LD B, Vx or LD [I], Vx changes a byte of memory (R59, R60). -/
def Obligations.OnlyStoresChangeMemory : Prop :=
  ∀ (s t : State) (w : Word) (i : Instr), s.fetchWord = .ok w → decode w = some i →
    step s = .next t → storesToMemory i = false → MemSame s t

/-- Only CALL and RET touch the stack, and they do not touch memory (R25). -/
def Obligations.OnlyCallAndReturnTouchStack : Prop :=
  ∀ (s t : State) (w : Word) (i : Instr), s.fetchWord = .ok w → decode w = some i →
    step s = .next t →
    (touchesStack i = false → StackSame s t) ∧ (touchesStack i = true → MemSame s t)

/-- The framebuffer is reached only by CLS and DRW: no other instruction writes a pixel, or does anything
that depends on one (R29). -/
def Obligations.OnlyClearAndDrawReachScreen : Prop :=
  ∀ (i : Instr) (s : State) (fb : Framebuffer), writesScreen i = false →
    (∀ t, exec i s = .next t → t.fb = s.fb) ∧
    exec i { s with fb := fb } = onNext (fun t => { t with fb := fb }) (exec i s)

/-- The sound timer is written by Fx18 and read by nothing (R27): with another value in it every instruction
does the same, and leaves that value in it unless it loads the timer. -/
def Obligations.NothingReadsSoundTimer : Prop :=
  ∀ (i : Instr) (s : State) (b : Byte),
    exec i { s with st := b } =
      onNext (fun t => { t with st := if loadsSoundTimer i then t.st else b }) (exec i s)

/-- Only Annn, Fx1E and Fx29 change `I` (R23): Dxyn, Fx33, Fx55 and Fx65 leave it, which is the closed
reading of decision D18. -/
def Obligations.OnlyIndexInstructionsChangeIndex : Prop :=
  ∀ (s t : State) (w : Word) (i : Instr), s.fetchWord = .ok w → decode w = some i →
    step s = .next t → writesIndex i = false → t.i = s.i

/-- A general register changes only where R21 and R22 list it: the destination of the instruction, `V[0]`
to `V[x]` of LD Vx,[I], and `VF` for the six instructions that write it as a flag. That the lists are
complete is decision D18 (log entry 17). -/
def Obligations.OnlyListedRegistersChange : Prop :=
  ∀ (s t : State) (w : Word) (i : Instr), s.fetchWord = .ok w → decode w = some i →
    step s = .next t → ∀ r : Reg, mayWriteReg i r = false → t.reg r = s.reg r

/-- What `VF` receives as a side effect (R22), where register 15 is not the destination as well; every
instruction that does not name or list register 15 leaves it alone. That SHR and SHL put out a bit of
`V[x]` and not of `V[y]` is decision D5 (log entry 10, DESIGN CHOICE, unsafe for the flag); that DRW with
`n = 0` clears `VF` is D24 (log entry 22, DESIGN CHOICE); that no unlisted instruction writes `VF` is D18
(log entry 17). DRW with `x` 15 is in DrawInstruction. -/
def Obligations.FlagRegisterSideEffects : Prop :=
  ∀ (s t : State) (x y : Reg), x ≠ flagReg →
    (exec (.addReg x y) s = .next t →
      t.reg flagReg = if 255 < (s.reg x).toNat + (s.reg y).toNat then 1#8 else 0#8) ∧
    (exec (.subReg x y) s = .next t →
      t.reg flagReg = if (s.reg y).toNat < (s.reg x).toNat then 1#8 else 0#8) ∧
    (exec (.subn x y) s = .next t →
      t.reg flagReg = if (s.reg x).toNat < (s.reg y).toNat then 1#8 else 0#8) ∧
    (exec (.shr x y) s = .next t → (t.reg flagReg).toNat = (s.reg x).toNat % 2) ∧
    (exec (.shl x y) s = .next t → (t.reg flagReg).toNat = (s.reg x).toNat / 128) ∧
    (∀ n : Fin 16, exec (.drw x y n) s = .next t →
      (t.reg flagReg = 0#8 ∨ t.reg flagReg = 1#8) ∧
      (t.reg flagReg = 1#8 ↔ ∃ py px,
        Covers (s.reg x).toNat (s.reg y).toNat (s.spriteAt n.val) py px ∧
        pixel s.fb py px = true)) ∧
    (∀ i : Instr, mayWriteReg i flagReg = false → exec i s = .next t →
      t.reg flagReg = s.reg flagReg)

/-- The inputs reach only the instructions that take them (R256): with other inputs, an instruction does
the same, provided that the key bits agree where it queries the keys and the random byte where it takes
one. No instruction changes the inputs. The form of the inputs is the model's (D14, D22; log entry 1,
DESIGN CHOICE). -/
def Obligations.InputsReachOnlyTheirInstructions : Prop :=
  ∀ (i : Instr) (s : State) (ins : List TickInput) (n : Nat),
    (usesKeys i = true → (s.withInputs ins n).input.keys = s.input.keys) →
    (usesRandom i = true → (s.withInputs ins n).input.rnd = s.input.rnd) →
    exec i (s.withInputs ins n) = onNext (fun t => t.withInputs ins n) (exec i s) ∧
    ∀ t, exec i s = .next t → InputsSame s t

/-- The words just stored by LD [I], Vx are what the very next fetch reads, with no synchronisation (R70). -/
def Obligations.StoreIsFetched : Prop :=
  ∀ (s t : State) (x k : Reg), s.mem.wf = true → k < x → exec (.ldMemVx x) s = .next t →
    s.pc.toNat = s.i.toNat + k.val →
    t.fetchWord = .ok (wordOfBytes (s.reg k) (s.reg (k + 1)))

/-! ### Control transfer -/

/-- SYS: every word of the `0` page but three is a legal instruction that writes nothing; the tick around
it advances `pc` by 2 and decrements the timers (R119). -/
def Obligations.SysDoesNothing : Prop :=
  ∀ nnn : Addr12, nnn ≠ 0x000#12 → nnn ≠ 0x0E0#12 → nnn ≠ 0x0EE#12 →
    decode (wordNnn 0x0 nnn) = some (.sys nnn) ∧ (∀ s : State, exec (.sys nnn) s = .next s) ∧
    ∀ s : State, s.fetchWord = .ok (wordNnn 0x0 nnn) →
      ∃ t, tick s = .next (.ok, t) ∧ step s = .next t ∧ t.pc.toNat = s.pc.toNat + 2 ∧
        t.dt.toNat = s.dt.toNat - 1 ∧ t.st.toNat = s.st.toNat - 1 ∧
        RegsSame s t ∧ t.i = s.i ∧ StackSame s t ∧ MemSame s t ∧ ScreenSame s t

/-- RET pops the top entry into `pc`; on an empty stack it is a fatal underflow (R130, R244). That the top
entry is the one at `SP - 1` and that it keeps its contents is the spec's own choice, decision D20 (R26;
log entry 19, DESIGN CHOICE). -/
def Obligations.ReturnPopsOrUnderflows : Prop :=
  decode 0x00EE#16 = some .ret ∧
  ∀ s : State,
    (∀ h : 0 < s.sp.val, ∃ t, exec .ret s = .next t ∧ t.sp.val + 1 = s.sp.val ∧
      t.pc = s.stack[s.sp.val - 1]'(by omega) ∧ t.stack = s.stack ∧ OnlyPcStack s t) ∧
    (s.sp.val = 0 → exec .ret s = .fault .stackUnderflow)

/-- CALL pushes the already advanced `pc` and jumps; the other entries stay; with 16 entries in use it is
a fatal overflow (R132). That the entry written is the one at `SP` is the spec's own choice, decision D20
(R26; log entry 19, DESIGN CHOICE). -/
def Obligations.CallPushesOrOverflows : Prop :=
  ∀ (nnn : Addr12) (s : State),
    decode (wordNnn 0x2 nnn) = some (.call nnn) ∧
    (∀ h : s.sp.val < 16, ∃ t, exec (.call nnn) s = .next t ∧ t.sp.val = s.sp.val + 1 ∧
      t.stack[s.sp.val] = s.pc ∧
      (∀ k : Fin 16, k.val ≠ s.sp.val → t.stack[k.val] = s.stack[k.val]) ∧
      t.pc.toNat = nnn.toNat ∧ OnlyPcStack s t) ∧
    (s.sp.val = 16 → exec (.call nnn) s = .fault .stackOverflow)

/-- From an empty stack any 16 CALLs complete, and any 17th is a fatal overflow (R243). -/
def Obligations.SeventeenthCallOverflows : Prop :=
  (∀ (nnn : Addr12) (s : State), s.sp.val = 16 → exec (.call nnn) s = .fault .stackOverflow) ∧
  ∀ (targets : List Addr12) (s : State), s.sp.val = 0 → targets.length = 16 →
    ∃ t, execCalls targets s = .next t ∧ t.sp.val = 16 ∧
      ∀ nnn : Addr12, exec (.call nnn) t = .fault .stackOverflow

/-- A RET after a CALL, whatever ran between them that left the stack alone, goes on behind the CALL with
the stack pointer as before it and the entries below it untouched (R132, R138; the entry order is D20,
log entry 19, DESIGN CHOICE). -/
def Obligations.ReturnGoesBehindItsCall : Prop :=
  ∀ (nnn : Addr12) (s t u : State), exec (.call nnn) s = .next t → StackSame t u →
    ∃ v, exec .ret u = .next v ∧ v.pc = s.pc ∧ v.sp = s.sp ∧
      (∀ k : Fin 16, k.val < s.sp.val → v.stack[k.val] = s.stack[k.val]) ∧ OnlyPcStack u v

/-- JP sets `pc` to `nnn`, whatever it is (R131). -/
def Obligations.JumpSetsPc : Prop :=
  ∀ (nnn : Addr12) (s : State),
    decode (wordNnn 0x1 nnn) = some (.jp nnn) ∧
    ∃ t, exec (.jp nnn) s = .next t ∧ t.pc.toNat = nnn.toNat ∧ OnlyPc s t

/-- JP V0 sets `pc` to `nnn + V[0]` as a number, not reduced; the register is always register 0 (R137;
the 16-bit `pc` and the unreduced sum are D1 and D2). -/
def Obligations.JumpOffsetAddsRegisterZero : Prop :=
  ∀ (nnn : Addr12) (s : State),
    decode (wordNnn 0xB nnn) = some (.jpV0 nnn) ∧
    ∃ t, exec (.jpV0 nnn) s = .next t ∧ t.pc.toNat = nnn.toNat + (s.reg 0).toNat ∧ OnlyPc s t

/-- SE Vx, kk and SNE Vx, kk skip 2 more exactly when the register equals, or differs from, the byte
(R133, R134). -/
def Obligations.SkipOnImmediate : Prop :=
  ∀ (x : Reg) (kk : Byte) (s : State),
    decode (wordXkk 0x3 x kk.toNat) = some (.seImm x kk) ∧
    decode (wordXkk 0x4 x kk.toNat) = some (.sneImm x kk) ∧
    (∃ t, exec (.seImm x kk) s = .next t ∧ OnlyPc s t ∧
      t.pc = if (s.reg x).toNat = kk.toNat then s.pc + 2#16 else s.pc) ∧
    (∃ t, exec (.sneImm x kk) s = .next t ∧ OnlyPc s t ∧
      t.pc = if (s.reg x).toNat = kk.toNat then s.pc else s.pc + 2#16)

/-- SE Vx, Vy and SNE Vx, Vy skip 2 more exactly when the registers are equal, or differ (R135, R136). -/
def Obligations.SkipOnRegister : Prop :=
  ∀ (x y : Reg) (s : State),
    decode (wordXyn 0x5 x y 0x0) = some (.seReg x y) ∧
    decode (wordXyn 0x9 x y 0x0) = some (.sneReg x y) ∧
    (∃ t, exec (.seReg x y) s = .next t ∧ OnlyPc s t ∧
      t.pc = if (s.reg x).toNat = (s.reg y).toNat then s.pc + 2#16 else s.pc) ∧
    (∃ t, exec (.sneReg x y) s = .next t ∧ OnlyPc s t ∧
      t.pc = if (s.reg x).toNat = (s.reg y).toNat then s.pc else s.pc + 2#16)

/-! ### Registers and arithmetic -/

/-- LD Vx, kk and LD Vx, Vy overwrite the register and nothing else (R151, R153). -/
def Obligations.LoadsOverwriteRegister : Prop :=
  ∀ (x y : Reg) (kk : Byte) (s : State),
    decode (wordXkk 0x6 x kk.toNat) = some (.ldImm x kk) ∧
    decode (wordXyn 0x8 x y 0x0) = some (.ldReg x y) ∧
    (∃ t, exec (.ldImm x kk) s = .next t ∧ t.reg x = kk ∧ RegsSameBut x s t ∧ OnlyRegs s t) ∧
    (∃ t, exec (.ldReg x y) s = .next t ∧ t.reg x = s.reg y ∧ RegsSameBut x s t ∧ OnlyRegs s t)

/-- ADD Vx, kk adds modulo 256 and sets no flag; with `x` 15 it is `VF` that is added to (R152). -/
def Obligations.AddImmediateWrapsWithoutFlag : Prop :=
  ∀ (x : Reg) (kk : Byte) (s : State),
    decode (wordXkk 0x7 x kk.toNat) = some (.addImm x kk) ∧
    ∃ t, exec (.addImm x kk) s = .next t ∧
      (t.reg x).toNat = ((s.reg x).toNat + kk.toNat) % 256 ∧ RegsSameBut x s t ∧ OnlyRegs s t

/-- OR, AND and XOR, bit by bit, without touching any other register: `VF` keeps its value unless it is the
destination (R154, R155, R156). -/
def Obligations.LogicKeepsFlag : Prop :=
  ∀ (x y : Reg) (s : State),
    decode (wordXyn 0x8 x y 0x1) = some (.orReg x y) ∧
    decode (wordXyn 0x8 x y 0x2) = some (.andReg x y) ∧
    decode (wordXyn 0x8 x y 0x3) = some (.xorReg x y) ∧
    (∃ t, exec (.orReg x y) s = .next t ∧ RegsSameBut x s t ∧ OnlyRegs s t ∧
      ∀ k : Nat, (t.reg x).getLsbD k = ((s.reg x).getLsbD k || (s.reg y).getLsbD k)) ∧
    (∃ t, exec (.andReg x y) s = .next t ∧ RegsSameBut x s t ∧ OnlyRegs s t ∧
      ∀ k : Nat, (t.reg x).getLsbD k = ((s.reg x).getLsbD k && (s.reg y).getLsbD k)) ∧
    (∃ t, exec (.xorReg x y) s = .next t ∧ RegsSameBut x s t ∧ OnlyRegs s t ∧
      ∀ k : Nat, (t.reg x).getLsbD k = ((s.reg x).getLsbD k ^^ (s.reg y).getLsbD k))

/-- ADD Vx, Vy: the sum modulo 256, and `VF` 1 exactly when it exceeds 255 (R157). The form with `x` 15 is
in FlagRegisterAsDestination. -/
def Obligations.AddSetsCarry : Prop :=
  ∀ (x y : Reg) (s : State), x ≠ flagReg →
    decode (wordXyn 0x8 x y 0x4) = some (.addReg x y) ∧
    ∃ t, exec (.addReg x y) s = .next t ∧
      (t.reg x).toNat = ((s.reg x).toNat + (s.reg y).toNat) % 256 ∧
      t.reg flagReg = (if 255 < (s.reg x).toNat + (s.reg y).toNat then 1#8 else 0#8) ∧
      RegsSameButFlag x s t ∧ OnlyRegs s t

/-- SUB and SUBN: the difference modulo 256, and `VF` 1 exactly when the first operand is strictly greater,
so 0 for equal operands (R158, R160). The forms with `x` 15 are in FlagRegisterAsDestination. -/
def Obligations.SubtractSetsStrictFlag : Prop :=
  ∀ (x y : Reg) (s : State), x ≠ flagReg →
    decode (wordXyn 0x8 x y 0x5) = some (.subReg x y) ∧
    decode (wordXyn 0x8 x y 0x7) = some (.subn x y) ∧
    (∃ t, exec (.subReg x y) s = .next t ∧
      ((t.reg x).toNat : Int) = ((s.reg x).toNat - (s.reg y).toNat) % 256 ∧
      t.reg flagReg = (if (s.reg y).toNat < (s.reg x).toNat then 1#8 else 0#8) ∧
      RegsSameButFlag x s t ∧ OnlyRegs s t) ∧
    (∃ t, exec (.subn x y) s = .next t ∧
      ((t.reg x).toNat : Int) = ((s.reg y).toNat - (s.reg x).toNat) % 256 ∧
      t.reg flagReg = (if (s.reg x).toNat < (s.reg y).toNat then 1#8 else 0#8) ∧
      RegsSameButFlag x s t ∧ OnlyRegs s t)

/-- SHR and SHL shift `V[x]` by one place, whatever `y`, and `VF` receives the bit shifted out (R159, R161).
That `V[x]` is shifted in place is decision D5. The forms with `x` 15 are in FlagRegisterAsDestination. -/
def Obligations.ShiftsInPlace : Prop :=
  ∀ (x y : Reg) (s : State), x ≠ flagReg →
    decode (wordXyn 0x8 x y 0x6) = some (.shr x y) ∧
    decode (wordXyn 0x8 x y 0xE) = some (.shl x y) ∧
    (∃ t, exec (.shr x y) s = .next t ∧ (t.reg x).toNat = (s.reg x).toNat / 2 ∧
      (t.reg flagReg).toNat = (s.reg x).toNat % 2 ∧ RegsSameButFlag x s t ∧ OnlyRegs s t) ∧
    (∃ t, exec (.shl x y) s = .next t ∧ (t.reg x).toNat = 2 * (s.reg x).toNat % 256 ∧
      (t.reg flagReg).toNat = (s.reg x).toNat / 128 ∧ RegsSameButFlag x s t ∧ OnlyRegs s t)

/-- The five flag-writing instructions with register 15 as their destination: it ends up holding the
result, the flag is lost, and nothing else changes (R150, decision D6; the shifts also D5). -/
def Obligations.FlagRegisterAsDestination : Prop :=
  ∀ (y : Reg) (s : State),
    (∃ t, exec (.addReg flagReg y) s = .next t ∧
      (t.reg flagReg).toNat = ((s.reg flagReg).toNat + (s.reg y).toNat) % 256 ∧
      RegsSameBut flagReg s t ∧ OnlyRegs s t) ∧
    (∃ t, exec (.subReg flagReg y) s = .next t ∧
      ((t.reg flagReg).toNat : Int) = ((s.reg flagReg).toNat - (s.reg y).toNat) % 256 ∧
      RegsSameBut flagReg s t ∧ OnlyRegs s t) ∧
    (∃ t, exec (.subn flagReg y) s = .next t ∧
      ((t.reg flagReg).toNat : Int) = ((s.reg y).toNat - (s.reg flagReg).toNat) % 256 ∧
      RegsSameBut flagReg s t ∧ OnlyRegs s t) ∧
    (∃ t, exec (.shr flagReg y) s = .next t ∧
      (t.reg flagReg).toNat = (s.reg flagReg).toNat / 2 ∧
      RegsSameBut flagReg s t ∧ OnlyRegs s t) ∧
    (∃ t, exec (.shl flagReg y) s = .next t ∧
      (t.reg flagReg).toNat = 2 * (s.reg flagReg).toNat % 256 ∧
      RegsSameBut flagReg s t ∧ OnlyRegs s t)

/-- RND: the register receives the random byte of the tick AND `kk`, for every value that byte may have
(R164; that the byte is a free input is D15, log entry 1). -/
def Obligations.RandomIsMasked : Prop :=
  ∀ (x : Reg) (kk : Byte) (s : State),
    decode (wordXkk 0xC x kk.toNat) = some (.rnd x kk) ∧
    ∃ t, exec (.rnd x kk) s = .next t ∧ RegsSameBut x s t ∧ OnlyRegs s t ∧
      ∀ k : Nat, (t.reg x).getLsbD k = (s.input.rnd.getLsbD k && kk.getLsbD k)

/-! ### Index register and memory -/

/-- LD I, nnn loads `nnn`; LD F, Vx the address of a digit sprite, from the low nibble of the register
(R180, R182). -/
def Obligations.IndexLoads : Prop :=
  ∀ (nnn : Addr12) (x : Reg) (s : State),
    decode (wordNnn 0xA nnn) = some (.ldI nnn) ∧ decode (wordXkk 0xF x 0x29) = some (.ldF x) ∧
    (∃ t, exec (.ldI nnn) s = .next t ∧ t.i.toNat = nnn.toNat ∧ OnlyIndex s t) ∧
    (∃ t, exec (.ldF x) s = .next t ∧ t.i.toNat = (s.reg x).toNat % 16 * 5 ∧ OnlyIndex s t)

/-- ADD I, Vx adds modulo 65536, keeps a sum above 0xFFF as it is and leaves `VF` alone (R181; the
reduction is decision D9). -/
def Obligations.IndexAddWraps : Prop :=
  ∀ (x : Reg) (s : State),
    decode (wordXkk 0xF x 0x1E) = some (.addI x) ∧
    ∃ t, exec (.addI x) s = .next t ∧
      t.i.toNat = (s.i.toNat + (s.reg x).toNat) % 65536 ∧ OnlyIndex s t

/-- LD B, Vx stores the three decimal digits of the register at `I`, `I + 1`, `I + 2`, and faults if that
runs out of memory (R183; the fault is decision D2, log entry 7). That it leaves `I` alone is decision D18
(R186; log entry 17, DESIGN CHOICE, unsafe). -/
def Obligations.BcdStoresDigits : Prop :=
  ∀ (x : Reg) (s : State),
    decode (wordXkk 0xF x 0x33) = some (.ldB x) ∧
    (s.i.toNat + 2 ≤ 0xFFF → s.mem.wf = true → ∃ t, exec (.ldB x) s = .next t ∧
      (t.mem.read s.i.toNat).toNat = (s.reg x).toNat / 100 ∧
      (t.mem.read (s.i.toNat + 1)).toNat = (s.reg x).toNat / 10 % 10 ∧
      (t.mem.read (s.i.toNat + 2)).toNat = (s.reg x).toNat % 10 ∧
      MemSameOutside s.i.toNat 3 s t ∧ OnlyMem s t) ∧
    (0xFFF < s.i.toNat + 2 → exec (.ldB x) s = .fault (.memoryBounds (max s.i.toNat 0x1000)))

/-- LD [I], Vx stores `V[0]` to `V[x]`, `x` inclusive, at `I` to `I + x`, and faults if that runs out of
memory (R184; the fault is decision D2, log entry 7). That it leaves `I` alone is decision D18 (R186; log
entry 17, DESIGN CHOICE, unsafe). -/
def Obligations.StoreRegistersInclusive : Prop :=
  ∀ (x : Reg) (s : State),
    decode (wordXkk 0xF x 0x55) = some (.ldMemVx x) ∧
    (s.i.toNat + x.val ≤ 0xFFF → s.mem.wf = true → ∃ t, exec (.ldMemVx x) s = .next t ∧
      (∀ r : Reg, r ≤ x → t.mem.read (s.i.toNat + r.val) = s.reg r) ∧
      MemSameOutside s.i.toNat (x.val + 1) s t ∧ OnlyMem s t) ∧
    (0xFFF < s.i.toNat + x.val →
      exec (.ldMemVx x) s = .fault (.memoryBounds (max s.i.toNat 0x1000)))

/-- LD Vx, [I] loads `V[0]` to `V[x]`, `x` inclusive, from `I` to `I + x`, leaves every other register,
memory and `I` alone, and faults if that runs out of memory (R185; the fault is decision D2, log entry 7).
That it leaves `I` alone is decision D18 (R186; log entry 17, DESIGN CHOICE, unsafe). -/
def Obligations.LoadRegistersInclusive : Prop :=
  ∀ (x : Reg) (s : State),
    decode (wordXkk 0xF x 0x65) = some (.ldVxMem x) ∧
    (s.i.toNat + x.val ≤ 0xFFF → ∃ t, exec (.ldVxMem x) s = .next t ∧
      (∀ r : Reg, r ≤ x → t.reg r = s.mem.read (s.i.toNat + r.val)) ∧
      (∀ r : Reg, x < r → t.reg r = s.reg r) ∧ OnlyRegs s t) ∧
    (0xFFF < s.i.toNat + x.val →
      exec (.ldVxMem x) s = .fault (.memoryBounds (max s.i.toNat 0x1000)))

/-! ### Display -/

/-- CLS turns every pixel off and changes nothing else, `VF` included (R201). -/
def Obligations.ClearTurnsAllPixelsOff : Prop :=
  decode 0x00E0#16 = some .cls ∧
  ∀ s : State, ∃ t, exec .cls s = .next t ∧ (∀ py px, pixel t.fb py px = false) ∧
    RegsSame s t ∧ OnlyScreenAndRegs s t

/-- The draw algorithm: exactly the pixels under on bits of the sprite change state, with coordinates
modulo the screen, and the boolean it returns says whether any of them was on (R203, R204). Sprites have
at most 15 rows. -/
def Obligations.DrawTogglesCoveredPixels : Prop :=
  ∀ (x0 y0 : Nat) (sprite : List Byte) (fb : Framebuffer), sprite.length ≤ 15 →
    (∀ py px, Covers x0 y0 sprite py px → pixel (draw x0 y0 sprite fb).1 py px = !pixel fb py px) ∧
    (∀ py px, ¬ Covers x0 y0 sprite py px → pixel (draw x0 y0 sprite fb).1 py px = pixel fb py px) ∧
    ((draw x0 y0 sprite fb).2 = true ↔
      ∃ py px, Covers x0 y0 sprite py px ∧ pixel fb py px = true)

/-- DRW draws the `n` bytes at `I` from column `V[x]`, row `V[y]` (both read first), writes `VF` with the
collision on every draw, changes no other register and not `I`, and faults if the bytes run out of memory;
`n = 0` reads and draws nothing (R202; the read order and `n = 0` are D24, the fault D2, the `I` left alone
D18; log entries 22, 7, 17). -/
def Obligations.DrawInstruction : Prop :=
  ∀ (x y : Reg) (n : Fin 16) (s : State),
    decode (wordXyn 0xD x y n.val) = some (.drw x y n) ∧
    (n.val = 0 ∨ s.i.toNat + n.val ≤ 0x1000 → ∃ t, exec (.drw x y n) s = .next t ∧
      (∀ py px, Covers (s.reg x).toNat (s.reg y).toNat (s.spriteAt n.val) py px →
        pixel t.fb py px = !pixel s.fb py px) ∧
      (∀ py px, ¬ Covers (s.reg x).toNat (s.reg y).toNat (s.spriteAt n.val) py px →
        pixel t.fb py px = pixel s.fb py px) ∧
      (t.reg flagReg = 0#8 ∨ t.reg flagReg = 1#8) ∧
      (t.reg flagReg = 1#8 ↔ ∃ py px,
        Covers (s.reg x).toNat (s.reg y).toNat (s.spriteAt n.val) py px ∧
        pixel s.fb py px = true) ∧
      RegsSameBut flagReg s t ∧ OnlyScreenAndRegs s t) ∧
    (n.val ≠ 0 ∧ 0x1000 < s.i.toNat + n.val →
      exec (.drw x y n) s = .fault (.memoryBounds (max s.i.toNat 0x1000)))

/-- Drawing the same sprite twice at the same coordinates restores the framebuffer; the second draw
collides exactly if some pixel under an on bit was off before the first, so its flag is 1 when the sprite
has an on bit and was drawn onto off pixels (R206; 90_conflicts.md C7). -/
def Obligations.DrawTwiceRestores : Prop :=
  ∀ (x y : Reg) (n : Fin 16) (s t : State), x ≠ flagReg → y ≠ flagReg →
    exec (.drw x y n) s = .next t →
    ∃ u, exec (.drw x y n) t = .next u ∧ u.fb = s.fb ∧
      (u.reg flagReg = 1#8 ↔ ∃ py px,
        Covers (s.reg x).toNat (s.reg y).toNat (s.spriteAt n.val) py px ∧
        pixel s.fb py px = false)

/-- Nothing is clipped (R205): every on bit of a sprite inverts a pixel, at its coordinates modulo 64 and
32; so an 8-bit-wide row of on bits drawn at x = 60 inverts columns 60..63 and 0..3 of its row and no
other pixel, and a sprite that runs off the bottom goes on at row 0. -/
def Obligations.SpritesWrapAtEdges : Prop :=
  (∀ (x0 y0 : Nat) (sprite : List Byte) (fb : Framebuffer) (r c : Nat), sprite.length ≤ 15 →
    r < sprite.length → c < 8 → (sprite.getD r 0).getLsbD (7 - c) = true →
    pixel (draw x0 y0 sprite fb).1 ⟨(y0 + r) % 32, by omega⟩ ⟨(x0 + c) % 64, by omega⟩ =
      !pixel fb ⟨(y0 + r) % 32, by omega⟩ ⟨(x0 + c) % 64, by omega⟩) ∧
  (∀ (y0 : Nat) (fb : Framebuffer) (py : Fin 32) (px : Fin 64),
    pixel (draw 60 y0 [0xFF#8] fb).1 py px =
      (pixel fb py px ^^ (decide (py.val = y0 % 32) && (decide (60 ≤ px.val) || decide (px.val ≤ 3))))) ∧
  (∀ (x0 : Nat) (fb : Framebuffer) (py : Fin 32) (px : Fin 64),
    pixel (draw x0 31 [0x80#8, 0x80#8] fb).1 py px =
      (pixel fb py px ^^ (decide (px.val = x0 % 64) && (decide (py.val = 31) || decide (py.val = 0)))))

/-! ### Keys and timers -/

/-- SKP and SKNP skip 2 more exactly when the key that `V[x]` names is down, or is up; a value above 15 is
a KeyIndexError (R221, R222; the fault is decision D7). -/
def Obligations.SkipOnKey : Prop :=
  ∀ (x : Reg) (s : State),
    decode (wordXkk 0xE x 0x9E) = some (.skp x) ∧ decode (wordXkk 0xE x 0xA1) = some (.sknp x) ∧
    ((s.reg x).toNat ≤ 15 →
      (∃ t, exec (.skp x) s = .next t ∧ OnlyPc s t ∧
        t.pc = if s.input.keys.getLsbD (s.reg x).toNat then s.pc + 2#16 else s.pc) ∧
      (∃ t, exec (.sknp x) s = .next t ∧ OnlyPc s t ∧
        t.pc = if s.input.keys.getLsbD (s.reg x).toNat then s.pc else s.pc + 2#16)) ∧
    (15 < (s.reg x).toNat → exec (.skp x) s = .fault (.keyIndex (s.reg x)) ∧
      exec (.sknp x) s = .fault (.keyIndex (s.reg x)))

/-- LD Vx, K: with no key down `pc` goes back to the instruction and nothing else happens, and the tick
completes with the outcome `Ok`, the same instruction next and the timers counted down; with a key down the register receives the number of a pressed key (which one, if several are
down, is left open) and `pc` stays (R223). -/
def Obligations.WaitForKey : Prop :=
  ∀ (x : Reg) (s : State),
    decode (wordXkk 0xF x 0x0A) = some (.ldVxK x) ∧
    (s.input.keys = 0#16 →
      ∃ t, exec (.ldVxK x) s = .next t ∧ t.pc = s.pc - 2#16 ∧ OnlyPc s t) ∧
    (s.input.keys ≠ 0#16 → ∃ t, exec (.ldVxK x) s = .next t ∧
      (∃ k : Nat, k ≤ 15 ∧ s.input.keys.getLsbD k = true ∧ (t.reg x).toNat = k) ∧
      RegsSameBut x s t ∧ OnlyRegs s t) ∧
    (s.fetchWord = .ok (wordXkk 0xF x 0x0A) → s.input.keys = 0#16 →
      ∃ t, tick s = .next (.ok, t) ∧ step s = .next t ∧ t.pc = s.pc ∧ RegsSame s t ∧ t.i = s.i ∧
        StackSame s t ∧ MemSame s t ∧ ScreenSame s t ∧
        t.dt.toNat = s.dt.toNat - 1 ∧ t.st.toNat = s.st.toNat - 1)

/-- The timer transfers copy one way or the other and change nothing else; after the tick's own decrement
a timer loaded with a value that is not 0 holds one less (R225, R226, R227). -/
def Obligations.TimerTransfers : Prop :=
  ∀ (x : Reg) (s : State),
    decode (wordXkk 0xF x 0x07) = some (.ldVxDt x) ∧
    decode (wordXkk 0xF x 0x15) = some (.ldDtVx x) ∧
    decode (wordXkk 0xF x 0x18) = some (.ldStVx x) ∧
    (∃ t, exec (.ldVxDt x) s = .next t ∧ t.reg x = s.dt ∧ RegsSameBut x s t ∧ OnlyRegs s t) ∧
    (∃ t, exec (.ldDtVx x) s = .next t ∧ t.dt = s.reg x ∧ t.st = s.st ∧ OnlyTimers s t) ∧
    (∃ t, exec (.ldStVx x) s = .next t ∧ t.st = s.reg x ∧ t.dt = s.dt ∧ OnlyTimers s t) ∧
    (s.fetchWord = .ok (wordXkk 0xF x 0x07) →
      ∃ t, step s = .next t ∧ t.reg x = s.dt ∧ t.dt.toNat = s.dt.toNat - 1) ∧
    (s.fetchWord = .ok (wordXkk 0xF x 0x15) →
      ∃ t, step s = .next t ∧ t.dt.toNat = (s.reg x).toNat - 1) ∧
    (s.fetchWord = .ok (wordXkk 0xF x 0x18) →
      ∃ t, step s = .next t ∧ t.st.toNat = (s.reg x).toNat - 1)

/-- The delay timer counts ticks (R228): after `j` ticks none of which loads it or halts, it shows `j`
less, and 0 from then on. -/
def Obligations.DelayCountsTicks : Prop :=
  ∀ (j : Nat) (s t : State), LeavesDelayAlone j s → stepsTo j s t →
    t.dt.toNat = s.dt.toNat - j

/-! ### Reset, load, the end of a run -/

/-- Reset and load (R270): registers zeroed, the digit sprites at `d * 5`, the rest of memory zero, `pc`
0x200; then the program's bytes from 0x200 on, every other byte as at reset, and the first fetch at 0x200.
The sprite bytes themselves are the model's table (D11, log entry 4); the limit of 3583 bytes is D19 (log
entry 18). -/
def Obligations.ResetThenLoad : Prop :=
  (∀ r : Reg, State.reset.reg r = 0#8) ∧ State.reset.pc.toNat = 0x200 ∧
  (∀ d j : Nat, d < 16 → j < 5 → State.reset.mem.read (d * 5 + j) = font.getD (d * 5 + j) 0#8) ∧
  (∀ a : Nat, 0x050 ≤ a → State.reset.mem.read a = 0#8) ∧
  ∀ rom : List Byte, rom.length ≤ 3583 →
    ∃ s, boot rom = some s ∧ s.pc.toNat = 0x200 ∧ (∀ r : Reg, s.reg r = 0#8) ∧
      (∀ k : Nat, k < rom.length → s.mem.read (0x200 + k) = rom.getD k 0#8) ∧
      (∀ a : Nat, a < 0x200 ∨ 0x200 + rom.length ≤ a →
        s.mem.read a = State.reset.mem.read a)

/-- The reset values that are decision D10 (log entry 14): `I`, `SP`, the stack entries and both timers 0,
every pixel off. -/
def Obligations.ResetValuesByDecision : Prop :=
  State.reset.i.toNat = 0 ∧ State.reset.sp.val = 0 ∧
  (∀ k : Fin 16, State.reset.stack[k.val] = 0#16) ∧ State.reset.dt = 0#8 ∧ State.reset.st = 0#8 ∧
  ∀ py px, pixel State.reset.fb py px = false

/-- A program of 3583 bytes or fewer is loaded into memory and nothing but memory changes; a longer one is
rejected and there is no state to run (R272; the limit is decision D19). -/
def Obligations.LoadChecksSize : Prop :=
  ∀ (s : State) (rom : List Byte),
    (rom.length ≤ 3583 → ∃ t, s.load rom = some t ∧ OnlyMem s t) ∧
    (3583 < rom.length → s.load rom = none)

/-- A run ends at the first tick that halts or faults, and what follows does not matter (R285, decision
D23): more ticks allowed give the same end. A run that does not fault is a safe run: it goes on or it
halts, and nothing is refused. -/
def Obligations.RunEndIsFinal : Prop :=
  ∀ (k j : Nat) (s : State), k ≤ j →
    (∀ t, runTicks k s = .halted t → runTicks j s = .halted t) ∧
    (∀ f, runTicks k s = .faulted f → runTicks j s = .faulted f) ∧
    (SafeRun k s ↔ ∀ f, runTicks k s ≠ .faulted f)
end

