-- ==== Sys2Proof/Laws/Decode.lean ====
section
/-! SUPPORT. The fields of packed words, the packing of a word's fields, the pattern words as packed words, bytes and words. -/

namespace Sys2Proof

/-! Two general facts: the high part and a low part of a concatenation. -/

theorem extract_append_high {m n : Nat} (a : BitVec m) (b : BitVec n) :
    (a ++ b).extractLsb' n m = a := by
  apply BitVec.eq_of_getLsbD_eq
  intro i hi
  simp [BitVec.getLsbD_append, hi]

theorem extract_append_low {m n : Nat} (a : BitVec m) (b : BitVec n) (st len : Nat)
    (h : st + len ≤ n) : (a ++ b).extractLsb' st len = b.extractLsb' st len := by
  apply BitVec.eq_of_getLsbD_eq
  intro i hi
  have : st + i < n := by omega
  simp [BitVec.getLsbD_append, hi, this]

theorem extract_all {n : Nat} (b : BitVec n) : b.extractLsb' 0 n = b := by
  apply BitVec.eq_of_getLsbD_eq
  intro i hi
  simp [hi]

/-! Fields of packed words (R81, R82). -/

@[simp] theorem opField_packNnn (op : BitVec 4) (nnn : Addr12) : opField (packNnn op nnn) = op :=
  extract_append_high op nnn

@[simp] theorem nnnField_packNnn (op : BitVec 4) (nnn : Addr12) : nnnField (packNnn op nnn) = nnn :=
  (extract_append_low op nnn 0 12 (by omega)).trans (extract_all nnn)

@[simp] theorem opField_packXkk (op : BitVec 4) (x : Reg) (kk : Byte) :
    opField (packXkk op x kk) = op :=
  extract_append_high op (regBits x ++ kk)

@[simp] theorem xField_packXkk (op : BitVec 4) (x : Reg) (kk : Byte) :
    xField (packXkk op x kk) = x :=
  congrArg BitVec.toFin ((extract_append_low op (regBits x ++ kk) 8 4 (by omega)).trans
    (extract_append_high (regBits x) kk))

@[simp] theorem kkField_packXkk (op : BitVec 4) (x : Reg) (kk : Byte) :
    kkField (packXkk op x kk) = kk :=
  (extract_append_low op (regBits x ++ kk) 0 8 (by omega)).trans
    ((extract_append_low (regBits x) kk 0 8 (by omega)).trans (extract_all kk))

@[simp] theorem opField_packXyn (op : BitVec 4) (x y : Reg) (n : BitVec 4) :
    opField (packXyn op x y n) = op :=
  extract_append_high op (regBits x ++ (regBits y ++ n))

@[simp] theorem xField_packXyn (op : BitVec 4) (x y : Reg) (n : BitVec 4) :
    xField (packXyn op x y n) = x :=
  congrArg BitVec.toFin ((extract_append_low op (regBits x ++ (regBits y ++ n)) 8 4 (by omega)).trans
    (extract_append_high (regBits x) (regBits y ++ n)))

@[simp] theorem yField_packXyn (op : BitVec 4) (x y : Reg) (n : BitVec 4) :
    yField (packXyn op x y n) = y :=
  congrArg BitVec.toFin ((extract_append_low op (regBits x ++ (regBits y ++ n)) 4 4 (by omega)).trans
    ((extract_append_low (regBits x) (regBits y ++ n) 4 4 (by omega)).trans
      (extract_append_high (regBits y) n)))

@[simp] theorem nField_packXyn (op : BitVec 4) (x y : Reg) (n : BitVec 4) :
    nField (packXyn op x y n) = n :=
  (extract_append_low op (regBits x ++ (regBits y ++ n)) 0 4 (by omega)).trans
    ((extract_append_low (regBits x) (regBits y ++ n) 0 4 (by omega)).trans
      ((extract_append_low (regBits y) n 0 4 (by omega)).trans (extract_all n)))

/-! A word is the packing of its fields. -/

/-- Two adjacent parts of a word make one part. -/
theorem append_extract (w : Word) (st m n : Nat) :
    w.extractLsb' (st + n) m ++ w.extractLsb' st n = w.extractLsb' st (m + n) := by
  apply BitVec.eq_of_getLsbD_eq
  intro i hi
  simp only [BitVec.getLsbD_append, BitVec.getLsbD_extractLsb']
  by_cases h : i < n
  · simp [h, hi]
  · have : i - n < m := by omega
    have h2 : st + n + (i - n) = st + i := by omega
    simp [h, hi, this, h2]

theorem packNnn_fields (w : Word) : packNnn (opField w) (nnnField w) = w :=
  (append_extract w 0 4 12).trans (extract_all w)

theorem packXkk_fields (w : Word) : packXkk (opField w) (xField w) (kkField w) = w := by
  have h : regBits (xField w) ++ kkField w = nnnField w := append_extract w 0 4 8
  unfold packXkk
  rw [h]
  exact packNnn_fields w

theorem packXyn_fields (w : Word) : packXyn (opField w) (xField w) (yField w) (nField w) = w := by
  have h : regBits (yField w) ++ nField w = kkField w := append_extract w 0 4 4
  unfold packXyn
  rw [h]
  exact packXkk_fields w

/-! A word under the three masks of R85 keeps the fields that the mask covers. -/

theorem and_mask_op (w : Word) : w &&& 0xF000#16 = packNnn (opField w) 0#12 := by
  have h : (0xF000#16 : Word) = 0xF#4 ++ 0#12 := rfl
  conv_lhs => rw [← packNnn_fields w, h]
  unfold packNnn
  rw [BitVec.and_append, BitVec.and_zero, show (0xF#4 : BitVec 4) = BitVec.allOnes 4 from rfl,
    BitVec.and_allOnes]

theorem and_mask_op_kk (w : Word) : w &&& 0xF0FF#16 = packXkk (opField w) 0 (kkField w) := by
  have h : (0xF0FF#16 : Word) = 0xF#4 ++ (0x0#4 ++ 0xFF#8) := rfl
  conv_lhs => rw [← packXkk_fields w, h]
  unfold packXkk
  rw [BitVec.and_append, BitVec.and_append, BitVec.and_zero,
    show (0xF#4 : BitVec 4) = BitVec.allOnes 4 from rfl,
    show (0xFF#8 : BitVec 8) = BitVec.allOnes 8 from rfl, BitVec.and_allOnes, BitVec.and_allOnes]
  rfl

theorem and_mask_op_n (w : Word) : w &&& 0xF00F#16 = packXyn (opField w) 0 0 (nField w) := by
  have h : (0xF00F#16 : Word) = 0xF#4 ++ (0x0#4 ++ (0x0#4 ++ 0xF#4)) := rfl
  conv_lhs => rw [← packXyn_fields w, h]
  unfold packXyn
  rw [BitVec.and_append, BitVec.and_append, BitVec.and_append, BitVec.and_zero, BitVec.and_zero,
    show (0xF#4 : BitVec 4) = BitVec.allOnes 4 from rfl, BitVec.and_allOnes, BitVec.and_allOnes]
  rfl

/-! The pattern words of Safety.lean as packed words. -/

theorem packNnn_toNat (op : BitVec 4) (nnn : Addr12) :
    (packNnn op nnn).toNat = 0x1000 * op.toNat + nnn.toNat := by
  have h := nnn.isLt
  simp only [packNnn, BitVec.toNat_append, Nat.shiftLeft_eq]
  rw [← Nat.shiftLeft_eq, ← Nat.shiftLeft_add_eq_or_of_lt h, Nat.shiftLeft_eq]
  omega

theorem regBits_append_toNat (x : Reg) (kk : Byte) :
    (regBits x ++ kk).toNat = 0x100 * x.val + kk.toNat := by
  have h := kk.isLt
  simp only [BitVec.toNat_append, regBits]
  rw [← Nat.shiftLeft_add_eq_or_of_lt h, Nat.shiftLeft_eq]
  show x.val * 2 ^ 8 + _ = _
  omega

theorem regBits_append_nibble_toNat (y : Reg) (n : BitVec 4) :
    (regBits y ++ n).toNat = 0x10 * y.val + n.toNat := by
  have h := n.isLt
  simp only [BitVec.toNat_append, regBits]
  rw [← Nat.shiftLeft_add_eq_or_of_lt h, Nat.shiftLeft_eq]
  show y.val * 2 ^ 4 + _ = _
  omega

theorem packXkk_toNat (op : BitVec 4) (x : Reg) (kk : Byte) :
    (packXkk op x kk).toNat = 0x1000 * op.toNat + 0x100 * x.val + kk.toNat := by
  have h := packNnn_toNat op (regBits x ++ kk)
  have h2 := regBits_append_toNat x kk
  have : (packXkk op x kk).toNat = (packNnn op (regBits x ++ kk)).toNat := rfl
  omega

theorem packXyn_toNat (op : BitVec 4) (x y : Reg) (n : BitVec 4) :
    (packXyn op x y n).toNat = 0x1000 * op.toNat + 0x100 * x.val + 0x10 * y.val + n.toNat := by
  have h := packXkk_toNat op x (regBits y ++ n)
  have h2 := regBits_append_nibble_toNat y n
  have : (packXyn op x y n).toNat = (packXkk op x (regBits y ++ n)).toNat := rfl
  omega

/-! The fields as numbers. -/

theorem opField_toNat (w : Word) : (opField w).toNat = w.toNat / 0x1000 := by
  have h := packNnn_toNat (opField w) (nnnField w)
  rw [packNnn_fields] at h
  have := (nnnField w).isLt
  omega

theorem kkField_toNat (w : Word) : (kkField w).toNat = w.toNat % 0x100 := by
  have h := packXkk_toNat (opField w) (xField w) (kkField w)
  rw [packXkk_fields] at h
  have := (kkField w).isLt
  omega

theorem nField_toNat (w : Word) : (nField w).toNat = w.toNat % 0x10 := by
  have h := packXyn_toNat (opField w) (xField w) (yField w) (nField w)
  rw [packXyn_fields] at h
  have := (nField w).isLt
  omega

open Machine in
theorem wordNnn_eq_pack (op : Nat) (nnn : Addr12) :
    wordNnn op nnn = packNnn (BitVec.ofNat 4 op) nnn := by
  apply BitVec.eq_of_toNat_eq
  rw [packNnn_toNat, wordNnn, BitVec.toNat_ofNat, BitVec.toNat_ofNat]
  have := nnn.isLt
  omega

open Machine in
theorem wordXkk_eq_pack (op : Nat) {kk : Nat} (hkk : kk < 256) (x : Reg) :
    wordXkk op x kk = packXkk (BitVec.ofNat 4 op) x (BitVec.ofNat 8 kk) := by
  apply BitVec.eq_of_toNat_eq
  rw [packXkk_toNat, wordXkk, BitVec.toNat_ofNat, BitVec.toNat_ofNat, BitVec.toNat_ofNat]
  have := x.isLt
  omega

open Machine in
theorem wordXyn_eq_pack (op : Nat) {n : Nat} (hn : n < 16) (x y : Reg) :
    wordXyn op x y n = packXyn (BitVec.ofNat 4 op) x y (BitVec.ofNat 4 n) := by
  apply BitVec.eq_of_toNat_eq
  rw [packXyn_toNat, wordXyn, BitVec.toNat_ofNat, BitVec.toNat_ofNat, BitVec.toNat_ofNat]
  have := x.isLt
  have := y.isLt
  omega

/-! Bytes and words (R55). -/

@[simp] theorem wordOfBytes_wordBytes (w : Word) : wordOfBytes (hiByte w) (loByte w) = w :=
  (append_extract w 0 8 8).trans (extract_all w)

@[simp] theorem hiByte_wordOfBytes (hi lo : Byte) : hiByte (wordOfBytes hi lo) = hi :=
  extract_append_high hi lo

@[simp] theorem loByte_wordOfBytes (hi lo : Byte) : loByte (wordOfBytes hi lo) = lo :=
  (extract_append_low hi lo 0 8 (by omega)).trans (extract_all lo)

/-- The bytes of a word decode to what the word decodes to. -/
theorem decodeBytes_wordBytes (w : Word) (rest : List Byte) :
    decodeBytes (wordBytes w ++ rest) =
      match decode w with
      | some i => .ok (i, rest)
      | none => .error (.illegalWord w) := by
  cases hd : decode w <;> simp [wordBytes, decodeBytes, hd]

end Sys2Proof
end

