-- ==== Sys2Proof/Laws/State.lean ====
section
/-! SUPPORT. One lemma for each field of State under each named update, and the register read and write laws. -/

namespace Sys2Proof.Machine

/-! `State.setReg` -/

@[simp] theorem setReg_v (s : State) (r : Reg) (b : Byte) : (s.setReg r b).v = s.v.set r.val b := rfl
@[simp] theorem setReg_i (s : State) (r : Reg) (b : Byte) : (s.setReg r b).i = s.i := rfl
@[simp] theorem setReg_pc (s : State) (r : Reg) (b : Byte) : (s.setReg r b).pc = s.pc := rfl
@[simp] theorem setReg_stack (s : State) (r : Reg) (b : Byte) : (s.setReg r b).stack = s.stack := rfl
@[simp] theorem setReg_sp (s : State) (r : Reg) (b : Byte) : (s.setReg r b).sp = s.sp := rfl
@[simp] theorem setReg_dt (s : State) (r : Reg) (b : Byte) : (s.setReg r b).dt = s.dt := rfl
@[simp] theorem setReg_st (s : State) (r : Reg) (b : Byte) : (s.setReg r b).st = s.st := rfl
@[simp] theorem setReg_mem (s : State) (r : Reg) (b : Byte) : (s.setReg r b).mem = s.mem := rfl
@[simp] theorem setReg_fb (s : State) (r : Reg) (b : Byte) : (s.setReg r b).fb = s.fb := rfl
@[simp] theorem setReg_inputs (s : State) (r : Reg) (b : Byte) : (s.setReg r b).inputs = s.inputs := rfl
@[simp] theorem setReg_tickNo (s : State) (r : Reg) (b : Byte) : (s.setReg r b).tickNo = s.tickNo := rfl

/-! `State.setFlagThenReg` -/

@[simp] theorem setFlagThenReg_v (s : State) (f : Bool) (r : Reg) (b : Byte) : (s.setFlagThenReg f r b).v = (s.v.set flagReg.val (flagByte f)).set r.val b := rfl
@[simp] theorem setFlagThenReg_i (s : State) (f : Bool) (r : Reg) (b : Byte) : (s.setFlagThenReg f r b).i = s.i := rfl
@[simp] theorem setFlagThenReg_pc (s : State) (f : Bool) (r : Reg) (b : Byte) : (s.setFlagThenReg f r b).pc = s.pc := rfl
@[simp] theorem setFlagThenReg_stack (s : State) (f : Bool) (r : Reg) (b : Byte) : (s.setFlagThenReg f r b).stack = s.stack := rfl
@[simp] theorem setFlagThenReg_sp (s : State) (f : Bool) (r : Reg) (b : Byte) : (s.setFlagThenReg f r b).sp = s.sp := rfl
@[simp] theorem setFlagThenReg_dt (s : State) (f : Bool) (r : Reg) (b : Byte) : (s.setFlagThenReg f r b).dt = s.dt := rfl
@[simp] theorem setFlagThenReg_st (s : State) (f : Bool) (r : Reg) (b : Byte) : (s.setFlagThenReg f r b).st = s.st := rfl
@[simp] theorem setFlagThenReg_mem (s : State) (f : Bool) (r : Reg) (b : Byte) : (s.setFlagThenReg f r b).mem = s.mem := rfl
@[simp] theorem setFlagThenReg_fb (s : State) (f : Bool) (r : Reg) (b : Byte) : (s.setFlagThenReg f r b).fb = s.fb := rfl
@[simp] theorem setFlagThenReg_inputs (s : State) (f : Bool) (r : Reg) (b : Byte) : (s.setFlagThenReg f r b).inputs = s.inputs := rfl
@[simp] theorem setFlagThenReg_tickNo (s : State) (f : Bool) (r : Reg) (b : Byte) : (s.setFlagThenReg f r b).tickNo = s.tickNo := rfl

/-! `State.advancePc` -/

@[simp] theorem advancePc_v (s : State) : s.advancePc.v = s.v := rfl
@[simp] theorem advancePc_i (s : State) : s.advancePc.i = s.i := rfl
@[simp] theorem advancePc_pc (s : State) : s.advancePc.pc = s.pc + 2#16 := rfl
@[simp] theorem advancePc_stack (s : State) : s.advancePc.stack = s.stack := rfl
@[simp] theorem advancePc_sp (s : State) : s.advancePc.sp = s.sp := rfl
@[simp] theorem advancePc_dt (s : State) : s.advancePc.dt = s.dt := rfl
@[simp] theorem advancePc_st (s : State) : s.advancePc.st = s.st := rfl
@[simp] theorem advancePc_mem (s : State) : s.advancePc.mem = s.mem := rfl
@[simp] theorem advancePc_fb (s : State) : s.advancePc.fb = s.fb := rfl
@[simp] theorem advancePc_inputs (s : State) : s.advancePc.inputs = s.inputs := rfl
@[simp] theorem advancePc_tickNo (s : State) : s.advancePc.tickNo = s.tickNo := rfl

/-! `State.skip` -/

@[simp] theorem skip_v (s : State) : s.skip.v = s.v := rfl
@[simp] theorem skip_i (s : State) : s.skip.i = s.i := rfl
@[simp] theorem skip_pc (s : State) : s.skip.pc = s.pc + 2#16 := rfl
@[simp] theorem skip_stack (s : State) : s.skip.stack = s.stack := rfl
@[simp] theorem skip_sp (s : State) : s.skip.sp = s.sp := rfl
@[simp] theorem skip_dt (s : State) : s.skip.dt = s.dt := rfl
@[simp] theorem skip_st (s : State) : s.skip.st = s.st := rfl
@[simp] theorem skip_mem (s : State) : s.skip.mem = s.mem := rfl
@[simp] theorem skip_fb (s : State) : s.skip.fb = s.fb := rfl
@[simp] theorem skip_inputs (s : State) : s.skip.inputs = s.inputs := rfl
@[simp] theorem skip_tickNo (s : State) : s.skip.tickNo = s.tickNo := rfl

/-! `State.rewindPc` -/

@[simp] theorem rewindPc_v (s : State) : s.rewindPc.v = s.v := rfl
@[simp] theorem rewindPc_i (s : State) : s.rewindPc.i = s.i := rfl
@[simp] theorem rewindPc_pc (s : State) : s.rewindPc.pc = s.pc - 2#16 := rfl
@[simp] theorem rewindPc_stack (s : State) : s.rewindPc.stack = s.stack := rfl
@[simp] theorem rewindPc_sp (s : State) : s.rewindPc.sp = s.sp := rfl
@[simp] theorem rewindPc_dt (s : State) : s.rewindPc.dt = s.dt := rfl
@[simp] theorem rewindPc_st (s : State) : s.rewindPc.st = s.st := rfl
@[simp] theorem rewindPc_mem (s : State) : s.rewindPc.mem = s.mem := rfl
@[simp] theorem rewindPc_fb (s : State) : s.rewindPc.fb = s.fb := rfl
@[simp] theorem rewindPc_inputs (s : State) : s.rewindPc.inputs = s.inputs := rfl
@[simp] theorem rewindPc_tickNo (s : State) : s.rewindPc.tickNo = s.tickNo := rfl

/-! `State.jumpTo` -/

@[simp] theorem jumpTo_v (s : State) (w : Word) : (s.jumpTo w).v = s.v := rfl
@[simp] theorem jumpTo_i (s : State) (w : Word) : (s.jumpTo w).i = s.i := rfl
@[simp] theorem jumpTo_pc (s : State) (w : Word) : (s.jumpTo w).pc = w := rfl
@[simp] theorem jumpTo_stack (s : State) (w : Word) : (s.jumpTo w).stack = s.stack := rfl
@[simp] theorem jumpTo_sp (s : State) (w : Word) : (s.jumpTo w).sp = s.sp := rfl
@[simp] theorem jumpTo_dt (s : State) (w : Word) : (s.jumpTo w).dt = s.dt := rfl
@[simp] theorem jumpTo_st (s : State) (w : Word) : (s.jumpTo w).st = s.st := rfl
@[simp] theorem jumpTo_mem (s : State) (w : Word) : (s.jumpTo w).mem = s.mem := rfl
@[simp] theorem jumpTo_fb (s : State) (w : Word) : (s.jumpTo w).fb = s.fb := rfl
@[simp] theorem jumpTo_inputs (s : State) (w : Word) : (s.jumpTo w).inputs = s.inputs := rfl
@[simp] theorem jumpTo_tickNo (s : State) (w : Word) : (s.jumpTo w).tickNo = s.tickNo := rfl

/-! `State.tickTimers` -/

@[simp] theorem tickTimers_v (s : State) : s.tickTimers.v = s.v := rfl
@[simp] theorem tickTimers_i (s : State) : s.tickTimers.i = s.i := rfl
@[simp] theorem tickTimers_pc (s : State) : s.tickTimers.pc = s.pc := rfl
@[simp] theorem tickTimers_stack (s : State) : s.tickTimers.stack = s.stack := rfl
@[simp] theorem tickTimers_sp (s : State) : s.tickTimers.sp = s.sp := rfl
@[simp] theorem tickTimers_dt (s : State) : s.tickTimers.dt = countDown s.dt := rfl
@[simp] theorem tickTimers_st (s : State) : s.tickTimers.st = countDown s.st := rfl
@[simp] theorem tickTimers_mem (s : State) : s.tickTimers.mem = s.mem := rfl
@[simp] theorem tickTimers_fb (s : State) : s.tickTimers.fb = s.fb := rfl
@[simp] theorem tickTimers_inputs (s : State) : s.tickTimers.inputs = s.inputs := rfl
@[simp] theorem tickTimers_tickNo (s : State) : s.tickTimers.tickNo = s.tickNo := rfl

/-! `State.nextInput` -/

@[simp] theorem nextInput_v (s : State) : s.nextInput.v = s.v := rfl
@[simp] theorem nextInput_i (s : State) : s.nextInput.i = s.i := rfl
@[simp] theorem nextInput_pc (s : State) : s.nextInput.pc = s.pc := rfl
@[simp] theorem nextInput_stack (s : State) : s.nextInput.stack = s.stack := rfl
@[simp] theorem nextInput_sp (s : State) : s.nextInput.sp = s.sp := rfl
@[simp] theorem nextInput_dt (s : State) : s.nextInput.dt = s.dt := rfl
@[simp] theorem nextInput_st (s : State) : s.nextInput.st = s.st := rfl
@[simp] theorem nextInput_mem (s : State) : s.nextInput.mem = s.mem := rfl
@[simp] theorem nextInput_fb (s : State) : s.nextInput.fb = s.fb := rfl
@[simp] theorem nextInput_inputs (s : State) : s.nextInput.inputs = s.inputs.tail := rfl
@[simp] theorem nextInput_tickNo (s : State) : s.nextInput.tickNo = s.tickNo + 1 := rfl

/-! `State.withInputs` -/

@[simp] theorem withInputs_v (s : State) (ins : List TickInput) (n : Nat) : (s.withInputs ins n).v = s.v := rfl
@[simp] theorem withInputs_i (s : State) (ins : List TickInput) (n : Nat) : (s.withInputs ins n).i = s.i := rfl
@[simp] theorem withInputs_pc (s : State) (ins : List TickInput) (n : Nat) : (s.withInputs ins n).pc = s.pc := rfl
@[simp] theorem withInputs_stack (s : State) (ins : List TickInput) (n : Nat) : (s.withInputs ins n).stack = s.stack := rfl
@[simp] theorem withInputs_sp (s : State) (ins : List TickInput) (n : Nat) : (s.withInputs ins n).sp = s.sp := rfl
@[simp] theorem withInputs_dt (s : State) (ins : List TickInput) (n : Nat) : (s.withInputs ins n).dt = s.dt := rfl
@[simp] theorem withInputs_st (s : State) (ins : List TickInput) (n : Nat) : (s.withInputs ins n).st = s.st := rfl
@[simp] theorem withInputs_mem (s : State) (ins : List TickInput) (n : Nat) : (s.withInputs ins n).mem = s.mem := rfl
@[simp] theorem withInputs_fb (s : State) (ins : List TickInput) (n : Nat) : (s.withInputs ins n).fb = s.fb := rfl
@[simp] theorem withInputs_inputs (s : State) (ins : List TickInput) (n : Nat) : (s.withInputs ins n).inputs = ins := rfl
@[simp] theorem withInputs_tickNo (s : State) (ins : List TickInput) (n : Nat) : (s.withInputs ins n).tickNo = n := rfl

/-! `State.skipIf`, which changes `pc` alone -/

@[simp] theorem skipIf_v (s : State) (c : Bool) : (s.skipIf c).v = s.v := by cases c <;> rfl
@[simp] theorem skipIf_i (s : State) (c : Bool) : (s.skipIf c).i = s.i := by cases c <;> rfl
@[simp] theorem skipIf_pc (s : State) (c : Bool) :
    (s.skipIf c).pc = if c then s.pc + 2#16 else s.pc := by
  cases c <;> rfl
@[simp] theorem skipIf_stack (s : State) (c : Bool) : (s.skipIf c).stack = s.stack := by cases c <;> rfl
@[simp] theorem skipIf_sp (s : State) (c : Bool) : (s.skipIf c).sp = s.sp := by cases c <;> rfl
@[simp] theorem skipIf_dt (s : State) (c : Bool) : (s.skipIf c).dt = s.dt := by cases c <;> rfl
@[simp] theorem skipIf_st (s : State) (c : Bool) : (s.skipIf c).st = s.st := by cases c <;> rfl
@[simp] theorem skipIf_mem (s : State) (c : Bool) : (s.skipIf c).mem = s.mem := by cases c <;> rfl
@[simp] theorem skipIf_fb (s : State) (c : Bool) : (s.skipIf c).fb = s.fb := by cases c <;> rfl
@[simp] theorem skipIf_inputs (s : State) (c : Bool) : (s.skipIf c).inputs = s.inputs := by cases c <;> rfl
@[simp] theorem skipIf_tickNo (s : State) (c : Bool) : (s.skipIf c).tickNo = s.tickNo := by cases c <;> rfl

/-! Reading registers. -/

/-- A register reads what was written to it, every other register as before (R20). -/
theorem reg_setReg (s : State) (x r : Reg) (b : Byte) :
    (s.setReg x b).reg r = if r = x then b else s.reg r := by
  simp only [State.reg, State.setReg, Vector.getElem_set, Fin.ext_iff, eq_comm]

@[simp] theorem reg_setReg_self (s : State) (x : Reg) (b : Byte) : (s.setReg x b).reg x = b := by
  simp [reg_setReg]

theorem reg_setReg_other (s : State) {x r : Reg} (b : Byte) (h : r ≠ x) :
    (s.setReg x b).reg r = s.reg r := by
  simp [reg_setReg, h]

/-- The result wins over the flag (R150). -/
theorem reg_setFlagThenReg (s : State) (f : Bool) (x r : Reg) (b : Byte) :
    (s.setFlagThenReg f x b).reg r =
      if r = x then b else if r = flagReg then flagByte f else s.reg r := by
  simp only [State.setFlagThenReg, reg_setReg]

/-- A state with the same registers reads the same registers. -/
theorem reg_congr {s t : State} (h : t.v = s.v) (r : Reg) : t.reg r = s.reg r := by
  simp [State.reg, h]

@[simp] theorem reg_advancePc (s : State) (r : Reg) : s.advancePc.reg r = s.reg r := rfl
@[simp] theorem reg_skip (s : State) (r : Reg) : s.skip.reg r = s.reg r := rfl
@[simp] theorem reg_rewindPc (s : State) (r : Reg) : s.rewindPc.reg r = s.reg r := rfl
@[simp] theorem reg_tickTimers (s : State) (r : Reg) : s.tickTimers.reg r = s.reg r := rfl
@[simp] theorem reg_nextInput (s : State) (r : Reg) : s.nextInput.reg r = s.reg r := rfl
@[simp] theorem reg_jumpTo (s : State) (w : Word) (r : Reg) : (s.jumpTo w).reg r = s.reg r := rfl
@[simp] theorem reg_withInputs (s : State) (ins : List TickInput) (n : Nat) (r : Reg) :
    (s.withInputs ins n).reg r = s.reg r := rfl
@[simp] theorem reg_skipIf (s : State) (c : Bool) (r : Reg) : (s.skipIf c).reg r = s.reg r := by
  cases c <;> rfl

/-! The input of a tick. -/

@[simp] theorem input_advancePc (s : State) : s.advancePc.input = s.input := rfl

/-- A supplied input is the one the tick sees. -/
theorem input_supplied (s : State) (t : TickInput) (rest : List TickInput) :
    (s.withInputs (t :: rest) s.tickNo).input = t := rfl

end Sys2Proof.Machine
end

