-- ==== Sys2Proof/Laws/Memory.lean ====
section
/-! SUPPORT. The memory laws: a read after a write, the canonical form is kept, equal reads of canonical memories make equal memories. -/

namespace Sys2Proof.Machine

/-- A cell's entries in front of a memory that does not list its address. -/
theorem read_cellFor_append (k a : Nat) (b : Byte) (m : Memory) (h : m.read k = initialByte k) :
    Memory.read (cellFor k b ++ m) a = if a = k then b else m.read a := by
  unfold cellFor
  split
  · rename_i hb
    by_cases ha : a = k
    · subst ha; simp [h, hb]
    · simp [ha]
  · simp [Memory.read, eq_comm]

/-- A memory in canonical form from `lo` on lists nothing below `lo`. -/
theorem read_below {lo a : Nat} {m : Memory} (h : m.wfFrom lo = true) (ha : a < lo) :
    m.read a = initialByte a := by
  induction m generalizing lo with
  | nil => rfl
  | cons c rest ih =>
    obtain ⟨k, b⟩ := c
    simp only [Memory.wfFrom, Bool.and_eq_true, decide_eq_true_eq] at h
    obtain ⟨⟨⟨h1, -⟩, -⟩, h4⟩ := h
    have : k ≠ a := by omega
    simp only [Memory.read, this, if_false]
    exact ih h4 (by omega)

/-- A read after a write: the byte written at its address, every other byte as before (R59, R66). -/
theorem read_write {lo : Nat} {m : Memory} (h : m.wfFrom lo = true) (k a : Nat) (b : Byte) :
    (m.write k b).read a = if a = k then b else m.read a := by
  induction m generalizing lo with
  | nil => simpa [Memory.write] using read_cellFor_append k a b [] rfl
  | cons c rest ih =>
    obtain ⟨k', b'⟩ := c
    have hw := h
    simp only [Memory.wfFrom, Bool.and_eq_true, decide_eq_true_eq] at h
    obtain ⟨⟨⟨h1, -⟩, -⟩, h4⟩ := h
    unfold Memory.write
    split
    · rename_i hlt
      refine read_cellFor_append k a b _ (read_below (lo := k') ?_ hlt)
      simp only [Memory.wfFrom, Bool.and_eq_true, decide_eq_true_eq] at hw ⊢
      exact ⟨⟨⟨le_rfl, hw.1.1.2⟩, hw.1.2⟩, hw.2⟩
    · split
      · rename_i _ heq
        subst heq
        rw [read_cellFor_append k a b _ (read_below h4 (by omega))]
        by_cases ha : a = k
        · simp [ha]
        · simp [Memory.read, ha, Ne.symm ha]
      · rename_i h5 h6
        simp only [Memory.read, ih h4]
        by_cases ha : k' = a
        · subst ha; simp; omega
        · simp [ha]

theorem cellFor_wfFrom {lo k : Nat} (b : Byte) {m : Memory} (hlo : lo ≤ k) (hk : k < Config.memSize)
    (h : m.wfFrom (k + 1) = true) : Memory.wfFrom lo (cellFor k b ++ m) = true := by
  unfold cellFor
  split
  · simp only [List.nil_append]
    cases m with
    | nil => rfl
    | cons c rest =>
      simp only [Memory.wfFrom, Bool.and_eq_true, decide_eq_true_eq] at h ⊢
      exact ⟨⟨⟨by omega, h.1.1.2⟩, h.1.2⟩, h.2⟩
  · rename_i hb
    simp [Memory.wfFrom, hlo, hk, hb, h]

/-- A write inside memory keeps the canonical form. -/
theorem write_wfFrom {lo k : Nat} {m : Memory} (h : m.wfFrom lo = true) (hlo : lo ≤ k)
    (hk : k < Config.memSize) (b : Byte) : (m.write k b).wfFrom lo = true := by
  induction m generalizing lo with
  | nil => simpa [Memory.write] using cellFor_wfFrom b (m := []) hlo hk rfl
  | cons c rest ih =>
    obtain ⟨k', b'⟩ := c
    have hw := h
    simp only [Memory.wfFrom, Bool.and_eq_true, decide_eq_true_eq] at h
    obtain ⟨⟨⟨h1, h2⟩, h3⟩, h4⟩ := h
    unfold Memory.write
    split
    · refine cellFor_wfFrom b hlo hk ?_
      simp only [Memory.wfFrom, Bool.and_eq_true, decide_eq_true_eq]
      exact ⟨⟨⟨by omega, h2⟩, h3⟩, h4⟩
    · split
      · rename_i _ heq
        subst heq
        exact cellFor_wfFrom b hlo hk h4
      · simp only [Memory.wfFrom, Bool.and_eq_true, decide_eq_true_eq]
        exact ⟨⟨⟨h1, h2⟩, h3⟩, ih h4 (by omega)⟩

theorem write_wf {k : Nat} {m : Memory} (h : m.wf = true) (hk : k < Config.memSize) (b : Byte) :
    (m.write k b).wf = true :=
  write_wfFrom h (Nat.zero_le k) hk b

/-- Canonical memories that read the same everywhere are the same memory. -/
theorem wfFrom_ext {lo : Nat} {m m' : Memory} (h : m.wfFrom lo = true) (h' : m'.wfFrom lo = true)
    (heq : ∀ a, m.read a = m'.read a) : m = m' := by
  induction m generalizing lo m' with
  | nil =>
    cases m' with
    | nil => rfl
    | cons c rest =>
      obtain ⟨k, b⟩ := c
      simp only [Memory.wfFrom, Bool.and_eq_true, bne_iff_ne] at h'
      have := heq k
      simp only [Memory.read, if_true] at this
      exact absurd this.symm h'.1.2
  | cons c rest ih =>
    obtain ⟨k, b⟩ := c
    cases m' with
    | nil =>
      simp only [Memory.wfFrom, Bool.and_eq_true, bne_iff_ne] at h
      have := heq k
      simp only [Memory.read, if_true] at this
      exact absurd this h.1.2
    | cons c' rest' =>
      obtain ⟨k', b'⟩ := c'
      simp only [Memory.wfFrom, Bool.and_eq_true, decide_eq_true_eq, bne_iff_ne] at h h'
      obtain ⟨⟨⟨_, _⟩, hb⟩, hr⟩ := h
      obtain ⟨⟨⟨_, _⟩, hb'⟩, hr'⟩ := h'
      have hk : k = k' := by
        rcases Nat.lt_trichotomy k k' with hlt | heq' | hlt
        · have := heq k
          have hne : k' ≠ k := by omega
          simp only [Memory.read, if_true, hne, if_false] at this
          rw [read_below hr' (by omega)] at this
          exact absurd this hb
        · exact heq'
        · have := heq k'
          have hne : k ≠ k' := by omega
          simp only [Memory.read, if_true, hne, if_false] at this
          rw [read_below hr (by omega)] at this
          exact absurd this.symm hb'
      subst hk
      have hbb : b = b' := by simpa [Memory.read] using heq k
      subst hbb
      have : rest = rest' := ih hr hr' fun a => by
        by_cases ha : k = a
        · subst ha; rw [read_below hr (by omega), read_below hr' (by omega)]
        · simpa [Memory.read, ha] using heq a
      rw [this]

end Sys2Proof.Machine
end

