-- ==== Sys2Proof/Laws/Ops.lean ====
section
/-! SUPPORT. What each shared operation can do, said once: bounded reads and writes, the fetch, the stack, the timers, the key query, register sequences. -/

namespace Sys2Proof.Machine

/-! Bounded memory access (R57, R58). -/

/-- A read of `n` bytes inside memory gives the bytes in order. -/
theorem readBytes_ok (s : State) (a n : Nat) (h : n = 0 ∨ a + n ≤ 0x1000) :
    s.readBytes a n = .ok ((List.range n).map fun k => s.mem.read (a + k)) := by
  induction n generalizing a with
  | zero => rfl
  | succ n ih =>
    have h1 : a < 0x1000 := by omega
    have ih' := ih (a + 1) (by omega)
    simp only [State.readBytes, State.readByte, Config.memSize, h1, if_true, ih',
      List.range_succ_eq_map, List.map_cons, List.map_map, Nat.add_zero, Except.ok.injEq,
      List.cons.injEq, true_and]
    apply List.map_congr_left
    intro k _
    simp [Nat.add_assoc, Nat.add_comm 1 k]

/-- A read that leaves memory names the first address outside it (R57). -/
theorem readBytes_error (s : State) (a n : Nat) (h0 : 0 < n) (h : 0x1000 < a + n) :
    s.readBytes a n = .error (.memoryBounds (max a 0x1000)) := by
  induction n generalizing a with
  | zero => omega
  | succ n ih =>
    unfold State.readBytes State.readByte
    by_cases h1 : a < 0x1000
    · have ih' := ih (a + 1) (by omega) (by omega)
      simp only [Config.memSize, h1, if_true, ih']
      congr 2
      omega
    · simp only [Config.memSize, h1, if_false]
      congr 2
      omega

/-- What a list of bytes written from `a` on leaves at address `k`. -/
theorem writeBytes_ok (s : State) (a : Nat) (bytes : List Byte) (h : a + bytes.length ≤ 0x1000)
    (hw : s.mem.wf = true) :
    ∃ m : Memory, s.writeBytes a bytes = .ok { s with mem := m } ∧ m.wf = true ∧
      (∀ k, k < a ∨ a + bytes.length ≤ k → m.read k = s.mem.read k) ∧
      (∀ j, j < bytes.length → m.read (a + j) = bytes.getD j 0) := by
  induction bytes generalizing s a with
  | nil => exact ⟨s.mem, rfl, hw, fun _ _ => rfl, fun j hj => absurd hj (by simp)⟩
  | cons b rest ih =>
    simp only [List.length_cons] at h ⊢
    have h1 : a < Config.memSize := by simp only [Config.memSize]; omega
    obtain ⟨m, hm, hmw, hout, hin⟩ :=
      ih { s with mem := s.mem.write a b } (a + 1) (by omega) (write_wf hw h1 b)
    refine ⟨m, ?_, hmw, ?_, ?_⟩
    · simp only [State.writeBytes, State.writeByte, h1, if_true, hm]
    · intro k hk
      rw [hout k (by omega)]
      have : k ≠ a := by omega
      simp [read_write (lo := 0) hw, this]
    · intro j hj
      cases j with
      | zero =>
        have := hout a (by omega)
        simpa [read_write (lo := 0) hw] using this
      | succ j =>
        have := hin j (by omega)
        simpa [Nat.add_assoc, Nat.add_comm 1 j] using this

/-- A write that leaves memory names the first address outside it (R57). -/
theorem writeBytes_error (s : State) (a : Nat) (bytes : List Byte) (h0 : 0 < bytes.length)
    (h : 0x1000 < a + bytes.length) :
    s.writeBytes a bytes = .error (.memoryBounds (max a 0x1000)) := by
  induction bytes generalizing s a with
  | nil => simp at h0
  | cons b rest ih =>
    simp only [List.length_cons] at h
    unfold State.writeBytes State.writeByte
    by_cases h1 : a < 0x1000
    · have ih' := ih { s with mem := s.mem.write a b } (a + 1) (by omega) (by omega)
      simp only [Config.memSize, h1, if_true, ih']
      congr 2
      omega
    · simp only [Config.memSize, h1, if_false]
      congr 2
      omega

/-- A write of bytes, whatever the memory: it changes memory alone or names the first address outside. -/
theorem writeBytes_cases (s : State) (a : Nat) (bytes : List Byte) :
    (∃ m : Memory, s.writeBytes a bytes = .ok { s with mem := m }) ∨
      (0 < bytes.length ∧ 0x1000 < a + bytes.length ∧
        s.writeBytes a bytes = .error (.memoryBounds (max a 0x1000))) := by
  by_cases h : 0 < bytes.length ∧ 0x1000 < a + bytes.length
  · exact .inr ⟨h.1, h.2, writeBytes_error s a bytes h.1 h.2⟩
  · left
    induction bytes generalizing s a with
    | nil => exact ⟨s.mem, rfl⟩
    | cons b rest ih =>
      simp only [List.length_cons] at h
      have h1 : a < 0x1000 := by omega
      obtain ⟨m, hm⟩ := ih { s with mem := s.mem.write a b } (a + 1) (by omega)
      exact ⟨m, by simp only [State.writeBytes, State.writeByte, Config.memSize, h1, if_true, hm]⟩

/-! The fetch (R111). -/

theorem fetchWord_ok (s : State) (h : s.pc.toNat ≤ 0x0FFE) :
    s.fetchWord = .ok (wordOfBytes (s.mem.read s.pc.toNat) (s.mem.read (s.pc.toNat + 1))) := by
  have : s.pc.toNat + 1 < 0x1000 := by omega
  simp [State.fetchWord, Config.memSize, this]

theorem fetchWord_error (s : State) (h : 0x0FFE < s.pc.toNat) :
    s.fetchWord = .error (.memoryBounds s.pc.toNat) := by
  have : ¬ s.pc.toNat + 1 < 0x1000 := by omega
  simp [State.fetchWord, Config.memSize, this]

/-- A fetch that gives a word was inside memory, and the word is the two bytes there. -/
theorem fetchWord_inv {s : State} {w : Word} (h : s.fetchWord = .ok w) :
    s.pc.toNat ≤ 0x0FFE ∧
      w = wordOfBytes (s.mem.read s.pc.toNat) (s.mem.read (s.pc.toNat + 1)) := by
  unfold State.fetchWord at h
  split at h
  · rename_i h1
    simp only [Config.memSize] at h1
    exact ⟨by omega, (Except.ok.inj h).symm⟩
  · cases h

/-- The advance of T2 as a number; it cannot overflow after a fetch (R112). -/
theorem advance_toNat {w : Word} (h : w.toNat ≤ 0x1FFE) : (w + 2#16).toNat = w.toNat + 2 := by
  rw [BitVec.toNat_add]
  simp
  omega

/-! The stack (R26). -/

/-- A push below the top writes the entry at `SP` and counts it. -/
theorem push_ok (s : State) (w : Word) (h : s.sp.val < 16) :
    s.push w = .ok { s with stack := s.stack.set s.sp.val w, sp := ⟨s.sp.val + 1, by omega⟩ } := by
  simp [State.push, h]

theorem push_full (s : State) (w : Word) (h : s.sp.val = 16) : s.push w = .error .stackOverflow := by
  simp [State.push, h]

/-- A pop above the bottom gives the entry under `SP` and uncounts it. -/
theorem pop_ok (s : State) (h : 0 < s.sp.val) :
    s.pop = .ok (s.stack[s.sp.val - 1]'(by omega), { s with sp := ⟨s.sp.val - 1, by omega⟩ }) := by
  simp [State.pop, h]

theorem pop_empty (s : State) (h : s.sp.val = 0) : s.pop = .error .stackUnderflow := by
  simp [State.pop, h]

/-! The timers (R27, R116). -/

/-- A timer goes one toward zero and never below it. -/
theorem countDown_toNat (t : Byte) : (countDown t).toNat = t.toNat - 1 := by
  unfold countDown
  split
  · rename_i h; simp [h]
  · rename_i h
    have h0 : t.toNat ≠ 0 := fun h' => h (BitVec.eq_of_toNat_eq (by simpa using h'))
    have := t.isLt
    rw [BitVec.toNat_sub]
    simp
    omega

/-! Keys (R220 to R224). -/

theorem keyQuery_ok (s : State) (x : Reg) (h : (s.reg x).toNat ≤ 15) :
    s.keyQuery x = .ok (s.input.keys.getLsbD (s.reg x).toNat) := by
  simp [State.keyQuery, keyNumber, keyDown, h]

theorem keyQuery_error (s : State) (x : Reg) (h : 15 < (s.reg x).toNat) :
    s.keyQuery x = .error (.keyIndex (s.reg x)) := by
  have : ¬ (s.reg x).toNat ≤ 15 := by omega
  simp [State.keyQuery, keyNumber, this]

theorem mem_pressedKeys (keys : BitVec 16) (k : Reg) :
    k ∈ pressedKeys keys ↔ keys.getLsbD k.val = true := by
  simp [pressedKeys, keyDown]

/-- No key is pressed: no key is reported (R224). -/
theorem anyKey_none_iff (keys : BitVec 16) : anyKey keys = none ↔ keys = 0#16 := by
  constructor
  · intro h
    have hnil : pressedKeys keys = [] := by
      unfold anyKey at h
      split at h
      · assumption
      · cases h
      · cases h
    apply BitVec.eq_of_getLsbD_eq
    intro i hi
    have := mem_pressedKeys keys ⟨i, hi⟩
    rw [hnil] at this
    simpa using this
  · rintro rfl
    decide

/-- The key that is reported is a pressed one (R224). -/
theorem anyKey_pressed {keys : BitVec 16} {k : Fin 16} (h : anyKey keys = some k) :
    keys.getLsbD k.val = true := by
  rw [← mem_pressedKeys]
  unfold anyKey at h
  split at h
  · cases h
  · rename_i k' hk
    rw [hk]
    simpa using h.symm
  · rename_i k' ks _ hk
    rw [hk]
    have hlt : Config.keyChoice keys % (ks.length + 1) < (k' :: ks).length := by
      simp only [List.length_cons]
      exact Nat.mod_lt _ (Nat.succ_pos _)
    rw [List.getD_eq_getElem _ _ hlt] at h
    exact (Option.some.inj h) ▸ List.getElem_mem hlt

/-! Register sequences (R184, R185). -/

theorem regsUpTo_length (s : State) (x : Reg) : (s.regsUpTo x).length = x.val + 1 := by
  simp [State.regsUpTo]

theorem regsUpTo_getD (s : State) (x r : Reg) (h : r ≤ x) : (s.regsUpTo x).getD r.val 0 = s.reg r := by
  have hr : r.val < x.val + 1 := Nat.lt_succ_of_le h
  simp [State.regsUpTo, List.getD_eq_getElem?_getD, State.reg, hr]

/-- Registers written in sequence: those reached get their byte, the others stay (R185). -/
theorem setRegsFrom_get (k : Nat) (bytes : List Byte) (v : Vector Byte 16) (r : Fin 16) :
    (setRegsFrom k bytes v)[r.val] =
      if k ≤ r.val ∧ r.val < k + bytes.length then bytes.getD (r.val - k) 0 else v[r.val] := by
  induction bytes generalizing k v with
  | nil => simp [setRegsFrom]
  | cons b rest ih =>
    simp only [setRegsFrom, ih, List.length_cons, Vector.getElem_setIfInBounds]
    by_cases h1 : k = r.val
    · simp [h1]
    · by_cases h2 : k + 1 ≤ r.val ∧ r.val < k + 1 + rest.length
      · have h3 : k ≤ r.val ∧ r.val < k + (rest.length + 1) := by omega
        have h4 : r.val - k = (r.val - (k + 1)) + 1 := by omega
        simp [h2, h3, h4]
      · have h3 : ¬ (k ≤ r.val ∧ r.val < k + (rest.length + 1)) := by omega
        rw [if_neg h2, if_neg h3, if_neg h1]

/-! The program load (R272). -/

/-- What a load leaves in memory. -/
theorem loadFrom_spec (m : Memory) (a : Nat) (bytes : List Byte) (h : a + bytes.length ≤ 0x1000)
    (hw : m.wf = true) :
    (m.loadFrom a bytes).wf = true ∧
      (∀ k, k < a ∨ a + bytes.length ≤ k → (m.loadFrom a bytes).read k = m.read k) ∧
      (∀ j, j < bytes.length → (m.loadFrom a bytes).read (a + j) = bytes.getD j 0) := by
  induction bytes generalizing m a with
  | nil => exact ⟨hw, fun _ _ => rfl, fun j hj => absurd hj (by simp)⟩
  | cons b rest ih =>
    simp only [List.length_cons] at h ⊢
    have h1 : a < Config.memSize := by simp only [Config.memSize]; omega
    obtain ⟨hmw, hout, hin⟩ := ih (m.write a b) (a + 1) (by omega) (write_wf hw h1 b)
    refine ⟨hmw, ?_, ?_⟩
    · intro k hk
      simp only [Memory.loadFrom]
      rw [hout k (by omega)]
      have : k ≠ a := by omega
      simp [read_write (lo := 0) hw, this]
    · intro j hj
      cases j with
      | zero =>
        have := hout a (by omega)
        simpa [Memory.loadFrom, read_write (lo := 0) hw] using this
      | succ j =>
        have := hin j (by omega)
        simpa [Memory.loadFrom, Nat.add_assoc, Nat.add_comm 1 j] using this

/-! Memory access depends on memory alone. -/

/-- Two states with the same memory read the same bytes. -/
theorem readBytes_congr {s t : State} (h : t.mem = s.mem) (a n : Nat) :
    t.readBytes a n = s.readBytes a n := by
  induction n generalizing a with
  | zero => rfl
  | succ n ih => simp only [State.readBytes, State.readByte, h, ih]

/-- Two states with the same memory write the same bytes, or raise the same fault. -/
theorem writeBytes_congr {s t : State} (h : t.mem = s.mem) (a : Nat) (bytes : List Byte) :
    t.writeBytes a bytes = (s.writeBytes a bytes).map fun u => { t with mem := u.mem } := by
  induction bytes generalizing s t a with
  | nil => simp [State.writeBytes, Except.map, ← h]
  | cons b rest ih =>
    by_cases ha : a < Config.memSize
    · simp only [State.writeBytes, State.writeByte, ha, if_true]
      rw [ih (s := { s with mem := s.mem.write a b }) (by simp [h])]
    · simp [State.writeBytes, State.writeByte, ha, Except.map]

/-! Immediates and results as numbers (R83, R9). -/

@[simp] theorem zextAddr_toNat (nnn : Addr12) : (zextAddr nnn).toNat = nnn.toNat := by
  have := nnn.isLt
  simp [zextAddr]
  omega

@[simp] theorem zextByte_toNat (b : Byte) : (zextByte b).toNat = b.toNat := by
  have := b.isLt
  simp [zextByte]
  omega

/-- A flag as a byte is 1 exactly when it is set. -/
theorem flagByte_eq_one (b : Bool) : flagByte b = 1#8 ↔ b = true := by cases b <;> decide

/-- A flag as a byte is 0 or 1. -/
theorem flagByte_cases (b : Bool) : flagByte b = 0#8 ∨ flagByte b = 1#8 := by cases b <;> decide

/-- The difference of two bytes as an integer modulo 256 (R158). -/
theorem byte_sub_toNat (a b : Byte) : ((a - b).toNat : Int) = ((a.toNat : Int) - b.toNat) % 256 := by
  have := a.isLt
  have := b.isLt
  rw [BitVec.toNat_sub]
  omega

end Sys2Proof.Machine
end

