-- ==== Sys2Proof/Laws/Display.lean ====
section
/-! SUPPORT. What a draw does to each pixel and to the collision flag (44_display.md R203 to R206). -/

namespace Sys2Proof.Machine

/-- Every pixel of the cleared screen is off (R201). -/
@[simp] theorem pixel_blankScreen (py : Fin 32) (px : Fin 64) : pixel blankScreen py px = false := by
  simp [pixel, blankScreen]

/-- Two framebuffers with the same pixels are the same. -/
theorem framebuffer_ext {f g : Framebuffer} (h : ∀ py px, pixel f py px = pixel g py px) : f = g := by
  apply Vector.ext
  intro i hi
  apply Vector.ext
  intro j hj
  exact h ⟨i, hi⟩ ⟨j, hj⟩

/-- A toggle inverts its pixel and no other (R203). -/
theorem pixel_togglePixel (fb : Framebuffer) (py qy : Fin 32) (px qx : Fin 64) :
    pixel (togglePixel fb py px) qy qx =
      (pixel fb qy qx ^^ decide (qy = py ∧ qx = px)) := by
  unfold pixel togglePixel
  by_cases h1 : qy = py
  · subst h1
    by_cases h2 : qx = px
    · subst h2; simp
    · have : px.val ≠ qx.val := fun h => h2 (Fin.ext h.symm)
      simp [h2, this]
  · have : py.val ≠ qy.val := fun h => h1 (Fin.ext h.symm)
    simp [h1, this]

/-- Bit `c` of a sprite row that starts in column `x0` lies over column `qx`, for some `c < m`. -/
def RowCovers (b : Byte) (x0 m : Nat) (qx : Fin 64) : Prop :=
  ∃ c, c < m ∧ wrapCol x0 c = qx ∧ b.getLsbD (7 - c) = true

/-- Different bits of a row fall on different columns (8 < 64). -/
theorem wrapCol_inj {x0 c d : Nat} (hc : c < 8) (hd : d < 8) (h : wrapCol x0 c = wrapCol x0 d) :
    c = d := by
  simp only [wrapCol, Fin.mk.injEq] at h
  omega

/-- Different rows of a sprite of at most 32 rows fall on different rows of the screen. -/
theorem wrapRow_inj {y0 c d : Nat} (hc : c < 32) (hd : d < 32) (h : wrapRow y0 c = wrapRow y0 d) :
    c = d := by
  simp only [wrapRow, Fin.mk.injEq] at h
  omega

open Classical in
/-- What the first `m` bits of a sprite row do: they invert the pixels under on bits and collide where
such a pixel was on. -/
theorem drawBits_spec (b : Byte) (x0 : Nat) (py : Fin 32) (m : Nat) (hm : m ≤ 8) (c : Canvas) :
    (∀ qy qx, pixel (drawBits b x0 py m c).1 qy qx =
      (pixel c.1 qy qx ^^ decide (qy = py ∧ RowCovers b x0 m qx))) ∧
    ((drawBits b x0 py m c).2 = true ↔
      c.2 = true ∨ ∃ qx, RowCovers b x0 m qx ∧ pixel c.1 py qx = true) := by
  induction m with
  | zero => simp [drawBits, RowCovers]
  | succ m ih =>
    obtain ⟨ih1, ih2⟩ := ih (by omega)
    have hnot : ¬ RowCovers b x0 m (wrapCol x0 m) := by
      rintro ⟨d, hd, hw, -⟩
      have := wrapCol_inj (by omega) (by omega) hw
      omega
    have hsucc : ∀ qx, RowCovers b x0 (m + 1) qx ↔
        RowCovers b x0 m qx ∨ (wrapCol x0 m = qx ∧ b.getLsbD (7 - m) = true) := by
      intro qx
      constructor
      · rintro ⟨d, hd, hw, hb⟩
        by_cases h : d = m
        · subst h; exact .inr ⟨hw, hb⟩
        · exact .inl ⟨d, by omega, hw, hb⟩
      · rintro (⟨d, hd, hw, hb⟩ | ⟨hw, hb⟩)
        · exact ⟨d, by omega, hw, hb⟩
        · exact ⟨m, by omega, hw, hb⟩
    unfold drawBits drawBit
    by_cases hb : b.getLsbD (7 - m) = true
    · simp only [hb, if_true]
      refine ⟨?_, ?_⟩
      · intro qy qx
        rw [pixel_togglePixel, ih1]
        by_cases h1 : qy = py
        · by_cases h2 : qx = wrapCol x0 m
          · subst h2; simp [h1, hnot, hsucc, hb]
          · have : ¬ wrapCol x0 m = qx := fun h => h2 h.symm
            simp [h1, h2, hsucc, this]
        · simp [h1]
      · have hpix := ih1 py (wrapCol x0 m)
        simp only [hnot, and_false, decide_false, Bool.xor_false] at hpix
        simp only [Bool.or_eq_true, ih2, hpix]
        constructor
        · rintro ((h | ⟨qx, h, hp⟩) | h)
          · exact .inl h
          · exact .inr ⟨qx, (hsucc qx).2 (.inl h), hp⟩
          · exact .inr ⟨_, (hsucc _).2 (.inr ⟨rfl, hb⟩), h⟩
        · rintro (h | ⟨qx, h, hp⟩)
          · exact .inl (.inl h)
          · rcases (hsucc qx).1 h with h | ⟨rfl, -⟩
            · exact .inl (.inr ⟨qx, h, hp⟩)
            · exact .inr hp
    · have hs : ∀ qx, RowCovers b x0 (m + 1) qx ↔ RowCovers b x0 m qx := fun qx => by
        rw [hsucc]; simp [hb]
      simp only [hb, if_false, Bool.false_eq_true]
      simp only [hs]
      exact ⟨ih1, ih2⟩

/-- Row `r' ≥ r` of a sprite whose rows are numbered from `r` lies over pixel (`qy`, `qx`). -/
def RowsCover (x0 y0 r : Nat) (rows : List Byte) (qy : Fin 32) (qx : Fin 64) : Prop :=
  ∃ k, ∃ h : k < rows.length, wrapRow y0 (r + k) = qy ∧ RowCovers rows[k] x0 8 qx

open Classical in
/-- What the rows of a sprite of at most 32 rows do. -/
theorem drawRows_spec (x0 y0 r : Nat) (rows : List Byte) (h : r + rows.length ≤ 32) (c : Canvas) :
    (∀ qy qx, pixel (drawRows x0 y0 r rows c).1 qy qx =
      (pixel c.1 qy qx ^^ decide (RowsCover x0 y0 r rows qy qx))) ∧
    ((drawRows x0 y0 r rows c).2 = true ↔
      c.2 = true ∨ ∃ qy qx, RowsCover x0 y0 r rows qy qx ∧ pixel c.1 qy qx = true) := by
  induction rows generalizing r c with
  | nil => simp [drawRows, RowsCover]
  | cons b rest ih =>
    simp only [List.length_cons] at h
    obtain ⟨ih1, ih2⟩ := ih (r + 1) (by omega) (drawBits b x0 (wrapRow y0 r) 8 c)
    obtain ⟨d1, d2⟩ := drawBits_spec b x0 (wrapRow y0 r) 8 le_rfl c
    have hcons : ∀ qy qx, RowsCover x0 y0 r (b :: rest) qy qx ↔
        (qy = wrapRow y0 r ∧ RowCovers b x0 8 qx) ∨ RowsCover x0 y0 (r + 1) rest qy qx := by
      intro qy qx
      constructor
      · rintro ⟨k, hk, hw, hc⟩
        cases k with
        | zero => exact .inl ⟨hw.symm, hc⟩
        | succ k =>
          refine .inr ⟨k, by simpa using hk, ?_, by simpa using hc⟩
          rw [← hw]; congr 1; omega
      · rintro (⟨hw, hc⟩ | ⟨k, hk, hw, hc⟩)
        · exact ⟨0, by simp, hw.symm, hc⟩
        · refine ⟨k + 1, by simpa using hk, ?_, by simpa using hc⟩
          rw [← hw]; congr 1; omega
    have hdisj : ∀ qx, ¬ RowsCover x0 y0 (r + 1) rest (wrapRow y0 r) qx := by
      rintro qx ⟨k, hk, hw, -⟩
      have := wrapRow_inj (by omega) (by omega) hw
      omega
    simp only [drawRows]
    refine ⟨?_, ?_⟩
    · intro qy qx
      rw [ih1, d1]
      by_cases h1 : qy = wrapRow y0 r
      · subst h1; simp [hcons, hdisj]
      · simp [hcons, h1]
    · rw [ih2, d2]
      constructor
      · rintro ((h | ⟨qx, hc, hp⟩) | ⟨qy, qx, hc, hp⟩)
        · exact .inl h
        · exact .inr ⟨_, qx, (hcons _ _).2 (.inl ⟨rfl, hc⟩), hp⟩
        · refine .inr ⟨qy, qx, (hcons _ _).2 (.inr hc), ?_⟩
          have h1 : qy ≠ wrapRow y0 r := by rintro rfl; exact hdisj qx hc
          rw [d1] at hp
          simpa [h1] using hp
      · rintro (h | ⟨qy, qx, hc, hp⟩)
        · exact .inl (.inl h)
        · rcases (hcons qy qx).1 hc with ⟨rfl, hrow⟩ | hc
          · exact .inl (.inr ⟨qx, hrow, hp⟩)
          · refine .inr ⟨qy, qx, hc, ?_⟩
            have h1 : qy ≠ wrapRow y0 r := by rintro rfl; exact hdisj qx hc
            rw [d1]
            simpa [h1] using hp

/-- The covered pixels in the terms of Safety.lean. -/
theorem rowsCover_iff_covers (x0 y0 : Nat) (sprite : List Byte) (py : Fin 32) (px : Fin 64) :
    RowsCover x0 y0 0 sprite py px ↔ Covers x0 y0 sprite py px := by
  constructor
  · rintro ⟨r, hr, hy, c, hc, hx, hb⟩
    refine ⟨r, c, hr, hc, congrArg Fin.val hx, ?_, ?_⟩
    · simpa [wrapRow] using congrArg Fin.val hy
    · rw [List.getD_eq_getElem _ _ hr]; exact hb
  · rintro ⟨r, c, hr, hc, hx, hy, hb⟩
    refine ⟨r, hr, Fin.ext (by simpa [wrapRow] using hy), c, hc, Fin.ext hx, ?_⟩
    rwa [List.getD_eq_getElem _ _ hr] at hb

end Sys2Proof.Machine
end

