-- ==== Sys2Proof/Laws/Exec.lean ====
section
/-! SUPPORT. What each instruction can do, said once: its next state where it cannot fault; where it can, its next state inside the bounds, its fault outside them, and the form of any next state. -/

namespace Sys2Proof.Machine

/-! `orRaise`: the only way a meaning faults. -/

@[simp] theorem orRaise_ok {α : Type} (a : α) (k : α → Result) : orRaise (.ok a) k = k a := rfl

@[simp] theorem orRaise_error {α : Type} (f : Fault) (k : α → Result) :
    orRaise (.error f) k = .fault f := rfl

/-- A next state comes from a value. -/
theorem orRaise_next {α : Type} {r : Except Fault α} {k : α → Result} {t : State}
    (h : orRaise r k = .next t) : ∃ a, r = .ok a ∧ k a = .next t := by
  cases r with
  | ok a => exact ⟨a, rfl, h⟩
  | error f => cases h

/-! Instructions that always complete. -/

@[simp] theorem exec_halt (s : State) : exec .halt s = .next s := rfl

@[simp] theorem exec_cls (s : State) : exec .cls s = .next { s with fb := blankScreen } := rfl

@[simp] theorem exec_sys (nnn : Addr12) (s : State) : exec (.sys nnn) s = .next s := rfl

@[simp] theorem exec_jp (nnn : Addr12) (s : State) :
    exec (.jp nnn) s = .next (s.jumpTo (zextAddr nnn)) := rfl

@[simp] theorem exec_jpV0 (nnn : Addr12) (s : State) :
    exec (.jpV0 nnn) s = .next (s.jumpTo (zextAddr nnn + zextByte (s.reg 0))) := rfl

@[simp] theorem exec_seImm (x : Reg) (kk : Byte) (s : State) :
    exec (.seImm x kk) s = .next (s.skipIf (s.reg x == kk)) := rfl

@[simp] theorem exec_sneImm (x : Reg) (kk : Byte) (s : State) :
    exec (.sneImm x kk) s = .next (s.skipIf (s.reg x != kk)) := rfl

@[simp] theorem exec_seReg (x y : Reg) (s : State) :
    exec (.seReg x y) s = .next (s.skipIf (s.reg x == s.reg y)) := rfl

@[simp] theorem exec_sneReg (x y : Reg) (s : State) :
    exec (.sneReg x y) s = .next (s.skipIf (s.reg x != s.reg y)) := rfl

@[simp] theorem exec_ldImm (x : Reg) (kk : Byte) (s : State) :
    exec (.ldImm x kk) s = .next (s.setReg x kk) := rfl

@[simp] theorem exec_addImm (x : Reg) (kk : Byte) (s : State) :
    exec (.addImm x kk) s = .next (s.setReg x (s.reg x + kk)) := rfl

@[simp] theorem exec_ldReg (x y : Reg) (s : State) :
    exec (.ldReg x y) s = .next (s.setReg x (s.reg y)) := rfl

@[simp] theorem exec_orReg (x y : Reg) (s : State) :
    exec (.orReg x y) s = .next (s.setReg x (s.reg x ||| s.reg y)) := rfl

@[simp] theorem exec_andReg (x y : Reg) (s : State) :
    exec (.andReg x y) s = .next (s.setReg x (s.reg x &&& s.reg y)) := rfl

@[simp] theorem exec_xorReg (x y : Reg) (s : State) :
    exec (.xorReg x y) s = .next (s.setReg x (s.reg x ^^^ s.reg y)) := rfl

@[simp] theorem exec_addReg (x y : Reg) (s : State) :
    exec (.addReg x y) s =
      .next (s.setFlagThenReg (carryFlag (s.reg x) (s.reg y)) x (s.reg x + s.reg y)) := rfl

@[simp] theorem exec_subReg (x y : Reg) (s : State) :
    exec (.subReg x y) s =
      .next (s.setFlagThenReg (greaterFlag (s.reg x) (s.reg y)) x (s.reg x - s.reg y)) := rfl

@[simp] theorem exec_shr (x y : Reg) (s : State) :
    exec (.shr x y) s = .next (s.setFlagThenReg (lowBitFlag (s.reg x)) x (s.reg x >>> 1)) := rfl

@[simp] theorem exec_subn (x y : Reg) (s : State) :
    exec (.subn x y) s =
      .next (s.setFlagThenReg (greaterFlag (s.reg y) (s.reg x)) x (s.reg y - s.reg x)) := rfl

@[simp] theorem exec_shl (x y : Reg) (s : State) :
    exec (.shl x y) s = .next (s.setFlagThenReg (highBitFlag (s.reg x)) x (s.reg x <<< 1)) := rfl

@[simp] theorem exec_rnd (x : Reg) (kk : Byte) (s : State) :
    exec (.rnd x kk) s = .next (s.setReg x (s.input.rnd &&& kk)) := rfl

@[simp] theorem exec_ldI (nnn : Addr12) (s : State) :
    exec (.ldI nnn) s = .next { s with i := zextAddr nnn } := rfl

@[simp] theorem exec_addI (x : Reg) (s : State) :
    exec (.addI x) s = .next { s with i := s.i + zextByte (s.reg x) } := rfl

@[simp] theorem exec_ldF (x : Reg) (s : State) :
    exec (.ldF x) s = .next { s with i := zextByte (s.reg x &&& 0x0F#8) * 5#16 } := rfl

@[simp] theorem exec_ldVxDt (x : Reg) (s : State) :
    exec (.ldVxDt x) s = .next (s.setReg x s.dt) := rfl

@[simp] theorem exec_ldDtVx (x : Reg) (s : State) :
    exec (.ldDtVx x) s = .next { s with dt := s.reg x } := rfl

@[simp] theorem exec_ldStVx (x : Reg) (s : State) :
    exec (.ldStVx x) s = .next { s with st := s.reg x } := rfl

/-- LD Vx, K with no key down (R223). -/
theorem exec_ldVxK_none (x : Reg) (s : State) (h : s.input.keys = 0#16) :
    exec (.ldVxK x) s = .next s.rewindPc := by
  show Host.Outcome.next (match anyKey s.input.keys with
    | some k => s.setReg x (keyValue k)
    | none => s.rewindPc) = _
  rw [(anyKey_none_iff _).2 h]

/-- LD Vx, K with a key down (R223, R224). -/
theorem exec_ldVxK_some (x : Reg) (s : State) (h : s.input.keys ≠ 0#16) :
    ∃ k : Fin 16, s.input.keys.getLsbD k.val = true ∧
      exec (.ldVxK x) s = .next (s.setReg x (keyValue k)) := by
  cases hk : anyKey s.input.keys with
  | none => exact absurd ((anyKey_none_iff _).1 hk) h
  | some k =>
    refine ⟨k, anyKey_pressed hk, ?_⟩
    show Host.Outcome.next (match anyKey s.input.keys with
      | some k => s.setReg x (keyValue k)
      | none => s.rewindPc) = _
    rw [hk]

/-! Instructions that may fault. -/

theorem exec_ret_ok (s : State) (h : 0 < s.sp.val) :
    exec .ret s = .next (State.jumpTo { s with sp := ⟨s.sp.val - 1, by omega⟩ }
      (s.stack[s.sp.val - 1]'(by omega))) := by
  show orRaise s.pop _ = _
  rw [pop_ok s h]
  rfl

theorem exec_ret_empty (s : State) (h : s.sp.val = 0) : exec .ret s = .fault .stackUnderflow := by
  show orRaise s.pop _ = _
  rw [pop_empty s h]
  rfl

theorem exec_call_ok (nnn : Addr12) (s : State) (h : s.sp.val < 16) :
    exec (.call nnn) s = .next (State.jumpTo
      { s with stack := s.stack.set s.sp.val s.pc, sp := ⟨s.sp.val + 1, by omega⟩ }
      (zextAddr nnn)) := by
  show orRaise (s.push s.pc) _ = _
  rw [push_ok s s.pc h]
  rfl

theorem exec_call_full (nnn : Addr12) (s : State) (h : s.sp.val = 16) :
    exec (.call nnn) s = .fault .stackOverflow := by
  show orRaise (s.push s.pc) _ = _
  rw [push_full s s.pc h]
  rfl

/-- The sprite a draw reads, where it reads inside memory (R202). -/
theorem readBytes_sprite (s : State) (n : Nat) (h : n = 0 ∨ s.i.toNat + n ≤ 0x1000) :
    s.readBytes (s.dataAddr 0) n = .ok (s.spriteAt n) := by
  rw [readBytes_ok s _ n (by simpa [State.dataAddr] using h)]
  rfl

theorem exec_drw_ok (x y : Reg) (n : Fin 16) (s : State)
    (h : n.val = 0 ∨ s.i.toNat + n.val ≤ 0x1000) :
    exec (.drw x y n) s = .next (State.setReg
      { s with fb := (draw (s.reg x).toNat (s.reg y).toNat (s.spriteAt n.val) s.fb).1 } flagReg
      (flagByte (draw (s.reg x).toNat (s.reg y).toNat (s.spriteAt n.val) s.fb).2)) := by
  show orRaise (s.readBytes (s.dataAddr 0) n.val) _ = _
  rw [readBytes_sprite s n.val h]
  rfl

theorem exec_drw_out (x y : Reg) (n : Fin 16) (s : State) (h0 : 0 < n.val)
    (h : 0x1000 < s.i.toNat + n.val) :
    exec (.drw x y n) s = .fault (.memoryBounds (max s.i.toNat 0x1000)) := by
  show orRaise (s.readBytes (s.dataAddr 0) n.val) _ = _
  rw [readBytes_error s _ n.val h0 (by simpa [State.dataAddr] using h)]
  rfl

theorem exec_ldVxMem_ok (x : Reg) (s : State) (h : s.i.toNat + x.val ≤ 0xFFF) :
    exec (.ldVxMem x) s = .next { s with v := setRegsFrom 0 (s.spriteAt (x.val + 1)) s.v } := by
  show orRaise (s.readBytes (s.dataAddr 0) (x.val + 1)) _ = _
  rw [readBytes_sprite s (x.val + 1) (by omega)]
  rfl

theorem exec_ldVxMem_out (x : Reg) (s : State) (h : 0xFFF < s.i.toNat + x.val) :
    exec (.ldVxMem x) s = .fault (.memoryBounds (max s.i.toNat 0x1000)) := by
  show orRaise (s.readBytes (s.dataAddr 0) (x.val + 1)) _ = _
  rw [readBytes_error s _ _ (by omega) (by simp only [State.dataAddr]; omega)]
  rfl

/-- A store of bytes at `I`: it changes memory alone, or it faults where the bytes leave memory. -/
theorem store_cases (s : State) (bytes : List Byte) :
    (∃ m : Memory, orRaise (s.writeBytes (s.dataAddr 0) bytes) (fun t => .next t) =
        .next { s with mem := m }) ∨
      (0 < bytes.length ∧ 0x1000 < s.i.toNat + bytes.length ∧
        orRaise (s.writeBytes (s.dataAddr 0) bytes) (fun t => .next t) =
          .fault (.memoryBounds (max s.i.toNat 0x1000))) := by
  rcases writeBytes_cases s (s.dataAddr 0) bytes with ⟨m, hm⟩ | ⟨h0, h1, h2⟩
  · exact .inl ⟨m, by rw [hm]; rfl⟩
  · exact .inr ⟨h0, h1, by rw [h2]; rfl⟩

/-- A store of bytes at `I` that leaves memory. -/
theorem store_out (s : State) (bytes : List Byte) (h0 : 0 < bytes.length)
    (h : 0x1000 < s.i.toNat + bytes.length) :
    orRaise (s.writeBytes (s.dataAddr 0) bytes) (fun t => .next t) =
      .fault (.memoryBounds (max s.i.toNat 0x1000)) := by
  rw [writeBytes_error s _ bytes h0 (by simpa [State.dataAddr] using h)]
  rfl

/-- A store of bytes at `I` inside memory: where each byte lands, and what stays. -/
theorem store_ok (s : State) (bytes : List Byte) (h : s.i.toNat + bytes.length ≤ 0x1000)
    (hw : s.mem.wf = true) :
    ∃ m : Memory, orRaise (s.writeBytes (s.dataAddr 0) bytes) (fun t => .next t) =
        .next { s with mem := m } ∧ m.wf = true ∧
      (∀ k, k < s.i.toNat ∨ s.i.toNat + bytes.length ≤ k → m.read k = s.mem.read k) ∧
      (∀ j, j < bytes.length → m.read (s.i.toNat + j) = bytes.getD j 0) := by
  obtain ⟨m, hm, hmw, hout, hin⟩ :=
    writeBytes_ok s (s.dataAddr 0) bytes (by simpa [State.dataAddr] using h) hw
  exact ⟨m, by rw [hm]; rfl, hmw, by simpa [State.dataAddr] using hout,
    by simpa [State.dataAddr] using hin⟩

@[simp] theorem exec_ldB (x : Reg) (s : State) :
    exec (.ldB x) s =
      orRaise (s.writeBytes (s.dataAddr 0) (bcdDigits (s.reg x))) fun t => .next t := rfl

@[simp] theorem exec_ldMemVx (x : Reg) (s : State) :
    exec (.ldMemVx x) s =
      orRaise (s.writeBytes (s.dataAddr 0) (s.regsUpTo x)) fun t => .next t := rfl

theorem exec_skp_ok (x : Reg) (s : State) (h : (s.reg x).toNat ≤ 15) :
    exec (.skp x) s = .next (s.skipIf (s.input.keys.getLsbD (s.reg x).toNat)) := by
  show orRaise (s.keyQuery x) _ = _
  rw [keyQuery_ok s x h]
  rfl

theorem exec_skp_out (x : Reg) (s : State) (h : 15 < (s.reg x).toNat) :
    exec (.skp x) s = .fault (.keyIndex (s.reg x)) := by
  show orRaise (s.keyQuery x) _ = _
  rw [keyQuery_error s x h]
  rfl

theorem exec_sknp_ok (x : Reg) (s : State) (h : (s.reg x).toNat ≤ 15) :
    exec (.sknp x) s = .next (s.skipIf (!s.input.keys.getLsbD (s.reg x).toNat)) := by
  show orRaise (s.keyQuery x) _ = _
  rw [keyQuery_ok s x h]
  rfl

theorem exec_sknp_out (x : Reg) (s : State) (h : 15 < (s.reg x).toNat) :
    exec (.sknp x) s = .fault (.keyIndex (s.reg x)) := by
  show orRaise (s.keyQuery x) _ = _
  rw [keyQuery_error s x h]
  rfl

/-! The form of any next state of an instruction that may fault. -/

theorem exec_ret_inv {s t : State} (h : exec .ret s = .next t) :
    ∃ h0 : 0 < s.sp.val, t = State.jumpTo { s with sp := ⟨s.sp.val - 1, by omega⟩ }
      (s.stack[s.sp.val - 1]'(by omega)) := by
  by_cases h0 : 0 < s.sp.val
  · rw [exec_ret_ok s h0] at h
    exact ⟨h0, (Host.Outcome.next.inj h).symm⟩
  · rw [exec_ret_empty s (by omega)] at h
    cases h

theorem exec_call_inv {nnn : Addr12} {s t : State} (h : exec (.call nnn) s = .next t) :
    ∃ h0 : s.sp.val < 16, t = State.jumpTo
      { s with stack := s.stack.set s.sp.val s.pc, sp := ⟨s.sp.val + 1, by omega⟩ }
      (zextAddr nnn) := by
  by_cases h0 : s.sp.val < 16
  · rw [exec_call_ok nnn s h0] at h
    exact ⟨h0, (Host.Outcome.next.inj h).symm⟩
  · rw [exec_call_full nnn s (by omega)] at h
    cases h

theorem exec_drw_inv {x y : Reg} {n : Fin 16} {s t : State} (h : exec (.drw x y n) s = .next t) :
    (n.val = 0 ∨ s.i.toNat + n.val ≤ 0x1000) ∧
    t = State.setReg
      { s with fb := (draw (s.reg x).toNat (s.reg y).toNat (s.spriteAt n.val) s.fb).1 } flagReg
      (flagByte (draw (s.reg x).toNat (s.reg y).toNat (s.spriteAt n.val) s.fb).2) := by
  by_cases h0 : n.val = 0 ∨ s.i.toNat + n.val ≤ 0x1000
  · rw [exec_drw_ok x y n s h0] at h
    exact ⟨h0, (Host.Outcome.next.inj h).symm⟩
  · rw [exec_drw_out x y n s (by omega) (by omega)] at h
    cases h

theorem exec_ldVxMem_inv {x : Reg} {s t : State} (h : exec (.ldVxMem x) s = .next t) :
    s.i.toNat + x.val ≤ 0xFFF ∧
    t = { s with v := setRegsFrom 0 (s.spriteAt (x.val + 1)) s.v } := by
  by_cases h0 : s.i.toNat + x.val ≤ 0xFFF
  · rw [exec_ldVxMem_ok x s h0] at h
    exact ⟨h0, (Host.Outcome.next.inj h).symm⟩
  · rw [exec_ldVxMem_out x s (by omega)] at h
    cases h

theorem store_inv {s t : State} {bytes : List Byte}
    (h : orRaise (s.writeBytes (s.dataAddr 0) bytes) (fun t => .next t) = .next t) :
    (bytes.length = 0 ∨ s.i.toNat + bytes.length ≤ 0x1000) ∧
      ∃ m : Memory, t = { s with mem := m } := by
  by_cases h0 : bytes.length = 0 ∨ s.i.toNat + bytes.length ≤ 0x1000
  · rcases store_cases s bytes with ⟨m, hm⟩ | ⟨h1, h2, -⟩
    · rw [hm] at h
      exact ⟨h0, m, (Host.Outcome.next.inj h).symm⟩
    · omega
  · rw [store_out s bytes (by omega) (by omega)] at h
    cases h

theorem exec_ldB_inv {x : Reg} {s t : State} (h : exec (.ldB x) s = .next t) :
    ∃ m : Memory, t = { s with mem := m } :=
  (store_inv h).2

theorem exec_ldMemVx_inv {x : Reg} {s t : State} (h : exec (.ldMemVx x) s = .next t) :
    ∃ m : Memory, t = { s with mem := m } :=
  (store_inv h).2

theorem exec_skp_inv {x : Reg} {s t : State} (h : exec (.skp x) s = .next t) :
    (s.reg x).toNat ≤ 15 ∧ t = s.skipIf (s.input.keys.getLsbD (s.reg x).toNat) := by
  by_cases h0 : (s.reg x).toNat ≤ 15
  · rw [exec_skp_ok x s h0] at h
    exact ⟨h0, (Host.Outcome.next.inj h).symm⟩
  · rw [exec_skp_out x s (by omega)] at h
    cases h

theorem exec_sknp_inv {x : Reg} {s t : State} (h : exec (.sknp x) s = .next t) :
    (s.reg x).toNat ≤ 15 ∧ t = s.skipIf (!s.input.keys.getLsbD (s.reg x).toNat) := by
  by_cases h0 : (s.reg x).toNat ≤ 15
  · rw [exec_sknp_ok x s h0] at h
    exact ⟨h0, (Host.Outcome.next.inj h).symm⟩
  · rw [exec_sknp_out x s (by omega)] at h
    cases h

theorem exec_ldVxK_inv {x : Reg} {s t : State} (h : exec (.ldVxK x) s = .next t) :
    (s.input.keys = 0#16 ∧ t = s.rewindPc) ∨
      ∃ k : Fin 16, s.input.keys.getLsbD k.val = true ∧ t = s.setReg x (keyValue k) := by
  by_cases h0 : s.input.keys = 0#16
  · rw [exec_ldVxK_none x s h0] at h
    exact .inl ⟨h0, (Host.Outcome.next.inj h).symm⟩
  · obtain ⟨k, hk, he⟩ := exec_ldVxK_some x s h0
    rw [he] at h
    exact .inr ⟨k, hk, (Host.Outcome.next.inj h).symm⟩

end Sys2Proof.Machine
end

