-- ==== Sys2Proof/Laws/PerInstr.lean ====
section
/-! SUPPORT. Statements for all instructions, made per instruction. EncodedInRow: an instruction's word is selected by the instruction's own row of R85 (its mask and pattern are those of spec/opcode_table.json). -/

namespace Sys2Proof.Laws.EncodedInRow

/-- The row of R85 that the instruction names selects its word. -/
def Statement (i : Instr) : Prop :=
  ∃ r, opcodeRows[i.rowIndex]? = some r ∧ r.selects (encode i) = true

/-- A packed `NNN` word under a row that fixes the major opcode. -/
theorem selects_packNnn (op : BitVec 4) (nnn : Addr12) (p : Word) (hp : packNnn op 0#12 = p) :
    (OpcodeRow.mk 0xF000#16 p).selects (packNnn op nnn) = true := by
  simp [OpcodeRow.selects, and_mask_op, hp]

/-- A packed `XKK` word under a row that fixes the major opcode. -/
theorem selects_packXkk (op : BitVec 4) (x : Reg) (kk : Byte) (p : Word) (hp : packNnn op 0#12 = p) :
    (OpcodeRow.mk 0xF000#16 p).selects (packXkk op x kk) = true := by
  simp [OpcodeRow.selects, and_mask_op, hp]

/-- A packed `XKK` word under a row that fixes the major opcode and the low byte. -/
theorem selects_packXff (op : BitVec 4) (x : Reg) (kk : Byte) (p : Word)
    (hp : packXkk op 0 kk = p) : (OpcodeRow.mk 0xF0FF#16 p).selects (packXkk op x kk) = true := by
  simp [OpcodeRow.selects, and_mask_op_kk, hp]

/-- A packed `XYN` word under a row that fixes the major opcode and the low nibble. -/
theorem selects_packXyn (op : BitVec 4) (x y : Reg) (n : BitVec 4) (p : Word)
    (hp : packXyn op 0 0 n = p) : (OpcodeRow.mk 0xF00F#16 p).selects (packXyn op x y n) = true := by
  simp [OpcodeRow.selects, and_mask_op_n, hp]

/-- A packed `XYN` word under a row that fixes the major opcode. -/
theorem selects_packXyn_op (op : BitVec 4) (x y : Reg) (n : BitVec 4) (p : Word)
    (hp : packNnn op 0#12 = p) : (OpcodeRow.mk 0xF000#16 p).selects (packXyn op x y n) = true := by
  simp [OpcodeRow.selects, and_mask_op, hp]

theorem halt : Statement .halt := ⟨_, rfl, by decide⟩
theorem cls : Statement .cls := ⟨_, rfl, by decide⟩
theorem ret : Statement .ret := ⟨_, rfl, by decide⟩
theorem sys (nnn : Addr12) : Statement (.sys nnn) := ⟨_, rfl, selects_packNnn _ _ _ rfl⟩
theorem jp (nnn : Addr12) : Statement (.jp nnn) := ⟨_, rfl, selects_packNnn _ _ _ rfl⟩
theorem call (nnn : Addr12) : Statement (.call nnn) := ⟨_, rfl, selects_packNnn _ _ _ rfl⟩
theorem seImm (x : Reg) (kk : Byte) : Statement (.seImm x kk) := ⟨_, rfl, selects_packXkk _ _ _ _ rfl⟩
theorem sneImm (x : Reg) (kk : Byte) : Statement (.sneImm x kk) := ⟨_, rfl, selects_packXkk _ _ _ _ rfl⟩
theorem seReg (x y : Reg) : Statement (.seReg x y) := ⟨_, rfl, selects_packXyn _ _ _ _ _ rfl⟩
theorem ldImm (x : Reg) (kk : Byte) : Statement (.ldImm x kk) := ⟨_, rfl, selects_packXkk _ _ _ _ rfl⟩
theorem addImm (x : Reg) (kk : Byte) : Statement (.addImm x kk) := ⟨_, rfl, selects_packXkk _ _ _ _ rfl⟩
theorem ldReg (x y : Reg) : Statement (.ldReg x y) := ⟨_, rfl, selects_packXyn _ _ _ _ _ rfl⟩
theorem orReg (x y : Reg) : Statement (.orReg x y) := ⟨_, rfl, selects_packXyn _ _ _ _ _ rfl⟩
theorem andReg (x y : Reg) : Statement (.andReg x y) := ⟨_, rfl, selects_packXyn _ _ _ _ _ rfl⟩
theorem xorReg (x y : Reg) : Statement (.xorReg x y) := ⟨_, rfl, selects_packXyn _ _ _ _ _ rfl⟩
theorem addReg (x y : Reg) : Statement (.addReg x y) := ⟨_, rfl, selects_packXyn _ _ _ _ _ rfl⟩
theorem subReg (x y : Reg) : Statement (.subReg x y) := ⟨_, rfl, selects_packXyn _ _ _ _ _ rfl⟩
theorem shr (x y : Reg) : Statement (.shr x y) := ⟨_, rfl, selects_packXyn _ _ _ _ _ rfl⟩
theorem subn (x y : Reg) : Statement (.subn x y) := ⟨_, rfl, selects_packXyn _ _ _ _ _ rfl⟩
theorem shl (x y : Reg) : Statement (.shl x y) := ⟨_, rfl, selects_packXyn _ _ _ _ _ rfl⟩
theorem sneReg (x y : Reg) : Statement (.sneReg x y) := ⟨_, rfl, selects_packXyn _ _ _ _ _ rfl⟩
theorem ldI (nnn : Addr12) : Statement (.ldI nnn) := ⟨_, rfl, selects_packNnn _ _ _ rfl⟩
theorem jpV0 (nnn : Addr12) : Statement (.jpV0 nnn) := ⟨_, rfl, selects_packNnn _ _ _ rfl⟩
theorem rnd (x : Reg) (kk : Byte) : Statement (.rnd x kk) := ⟨_, rfl, selects_packXkk _ _ _ _ rfl⟩
theorem drw (x y : Reg) (n : Fin 16) : Statement (.drw x y n) := ⟨_, rfl, selects_packXyn_op _ _ _ _ _ rfl⟩
theorem skp (x : Reg) : Statement (.skp x) := ⟨_, rfl, selects_packXff _ _ _ _ rfl⟩
theorem sknp (x : Reg) : Statement (.sknp x) := ⟨_, rfl, selects_packXff _ _ _ _ rfl⟩
theorem ldVxDt (x : Reg) : Statement (.ldVxDt x) := ⟨_, rfl, selects_packXff _ _ _ _ rfl⟩
theorem ldVxK (x : Reg) : Statement (.ldVxK x) := ⟨_, rfl, selects_packXff _ _ _ _ rfl⟩
theorem ldDtVx (x : Reg) : Statement (.ldDtVx x) := ⟨_, rfl, selects_packXff _ _ _ _ rfl⟩
theorem ldStVx (x : Reg) : Statement (.ldStVx x) := ⟨_, rfl, selects_packXff _ _ _ _ rfl⟩
theorem addI (x : Reg) : Statement (.addI x) := ⟨_, rfl, selects_packXff _ _ _ _ rfl⟩
theorem ldF (x : Reg) : Statement (.ldF x) := ⟨_, rfl, selects_packXff _ _ _ _ rfl⟩
theorem ldB (x : Reg) : Statement (.ldB x) := ⟨_, rfl, selects_packXff _ _ _ _ rfl⟩
theorem ldMemVx (x : Reg) : Statement (.ldMemVx x) := ⟨_, rfl, selects_packXff _ _ _ _ rfl⟩
theorem ldVxMem (x : Reg) : Statement (.ldVxMem x) := ⟨_, rfl, selects_packXff _ _ _ _ rfl⟩

end Sys2Proof.Laws.EncodedInRow
end

