-- ==== Sys2Proof/Laws/Step.lean ====
section
/-! SUPPORT. What a tick and a step can do, said once: the equations of a tick on a fetched word, and the inversion of a step that answers a next state. -/

namespace Sys2Proof.Machine

@[simp] theorem reportOf_halt : reportOf .halt = .halt := rfl

theorem reportOf_ok {i : Instr} (h : i ≠ .halt) : reportOf i = .ok := by simp [reportOf, h]

theorem reportOf_halt_iff (i : Instr) : reportOf i = .halt ↔ i = .halt := by
  by_cases h : i = .halt <;> simp [reportOf, h]

/-! The tick, by its phases (R110). -/

theorem tick_of_decode {s : State} {w : Word} {i : Instr} (hf : s.fetchWord = .ok w)
    (hd : decode w = some i) : tick s = tickInstr i s := by
  simp [tick, hf, hd]

theorem tick_of_illegal {s : State} {w : Word} (hf : s.fetchWord = .ok w) (hd : decode w = none) :
    tick s = .fault (.decodeError w) := by
  simp [tick, hf, hd]

theorem tick_of_bounds {s : State} (h : 0x0FFE < s.pc.toNat) :
    tick s = .fault (.memoryBounds s.pc.toNat) := by
  simp [tick, fetchWord_error s h]

theorem tickInstr_next {i : Instr} {s t : State} (h : exec i s.advancePc = .next t) :
    tickInstr i s = .next (reportOf i, finishTick (reportOf i) t) := by
  simp [tickInstr, h]

theorem tickInstr_fault {i : Instr} {s : State} {f : Fault} (h : exec i s.advancePc = .fault f) :
    tickInstr i s = .fault f := by
  simp [tickInstr, h]

/-- A tick that goes on fetched a legal word and executed its instruction. -/
theorem tick_inv {s t : State} {r : TickReport} (h : tick s = .next (r, t)) :
    ∃ w i u, s.fetchWord = .ok w ∧ decode w = some i ∧ exec i s.advancePc = .next u ∧
      r = reportOf i ∧ t = finishTick (reportOf i) u := by
  unfold tick at h
  split at h
  · cases h
  · rename_i w hf
    split at h
    · cases h
    · rename_i i hd
      unfold tickInstr at h
      split at h
      · rename_i u hx
        cases h
        exact ⟨w, i, u, hf, hd, hx, rfl, rfl⟩
      · cases h
      · cases h

/-- The step that goes on is a tick that goes on. -/
theorem step_next_iff (s t : State) : step s = .next t ↔ ∃ r, tick s = .next (r, t) := by
  unfold step
  cases tick s with
  | next p => obtain ⟨r, u⟩ := p; simp [dropReport]
  | fault f => simp [dropReport]
  | refused r => simp [dropReport]

/-- The same for a step: everything a step that goes on can have done. -/
theorem step_inv {s t : State} (h : step s = .next t) :
    ∃ w i u, s.fetchWord = .ok w ∧ decode w = some i ∧ exec i s.advancePc = .next u ∧
      t = finishTick (reportOf i) u := by
  obtain ⟨r, hr⟩ := (step_next_iff s t).1 h
  obtain ⟨w, i, u, hf, hd, hx, -, ht⟩ := tick_inv hr
  exact ⟨w, i, u, hf, hd, hx, ht⟩

/-- The same, for a word and instruction already known. -/
theorem step_inv_of {s t : State} {w : Word} {i : Instr} (hf : s.fetchWord = .ok w)
    (hd : decode w = some i) (h : step s = .next t) :
    ∃ u, exec i s.advancePc = .next u ∧ t = finishTick (reportOf i) u := by
  obtain ⟨w', i', u, hf', hd', hx, ht⟩ := step_inv h
  rw [hf] at hf'
  cases hf'
  rw [hd] at hd'
  cases hd'
  exact ⟨u, hx, ht⟩

theorem step_of_next {s u : State} {w : Word} {i : Instr} (hf : s.fetchWord = .ok w)
    (hd : decode w = some i) (hx : exec i s.advancePc = .next u) :
    step s = .next (finishTick (reportOf i) u) := by
  simp [step, tick_of_decode hf hd, tickInstr_next hx, dropReport]

theorem step_of_fault {s : State} {w : Word} {i : Instr} {f : Fault} (hf : s.fetchWord = .ok w)
    (hd : decode w = some i) (hx : exec i s.advancePc = .fault f) : step s = .fault f := by
  simp [step, tick_of_decode hf hd, tickInstr_fault hx, dropReport]

/-! What the end of a tick leaves alone. -/

@[simp] theorem finishTick_v (r : TickReport) (s : State) : (finishTick r s).v = s.v := by
  cases r <;> rfl
@[simp] theorem finishTick_i (r : TickReport) (s : State) : (finishTick r s).i = s.i := by
  cases r <;> rfl
@[simp] theorem finishTick_pc (r : TickReport) (s : State) : (finishTick r s).pc = s.pc := by
  cases r <;> rfl
@[simp] theorem finishTick_stack (r : TickReport) (s : State) : (finishTick r s).stack = s.stack := by
  cases r <;> rfl
@[simp] theorem finishTick_sp (r : TickReport) (s : State) : (finishTick r s).sp = s.sp := by
  cases r <;> rfl
@[simp] theorem finishTick_mem (r : TickReport) (s : State) : (finishTick r s).mem = s.mem := by
  cases r <;> rfl
@[simp] theorem finishTick_fb (r : TickReport) (s : State) : (finishTick r s).fb = s.fb := by
  cases r <;> rfl
@[simp] theorem finishTick_inputs (r : TickReport) (s : State) :
    (finishTick r s).inputs = s.inputs.tail := by
  cases r <;> rfl
@[simp] theorem finishTick_tickNo (r : TickReport) (s : State) :
    (finishTick r s).tickNo = s.tickNo + 1 := by
  cases r <;> rfl
@[simp] theorem finishTick_ok_dt (s : State) : (finishTick .ok s).dt = countDown s.dt := rfl
@[simp] theorem finishTick_ok_st (s : State) : (finishTick .ok s).st = countDown s.st := rfl
@[simp] theorem finishTick_halt_dt (s : State) : (finishTick .halt s).dt = s.dt := rfl
@[simp] theorem finishTick_halt_st (s : State) : (finishTick .halt s).st = s.st := rfl
@[simp] theorem reg_finishTick (r : TickReport) (s : State) (x : Reg) :
    (finishTick r s).reg x = s.reg x := by
  cases r <;> rfl

end Sys2Proof.Machine
end

