-- ==== Sys2Proof/Tests/Slice0.lean ====
section
/-! SUPPORT. Tests: well-formedness smoke, decoding of words written out from the spec's encodings, single steps with the expected values of 95_test_vectors.md (its vector ids stand in the comments), and a witness for the hypotheses of every statement that has some. -/

namespace Sys2Proof.Tests

open Sys2Proof Sys2Proof.Machine

/-! ### Well-formedness -/

theorem test_halt_word_is_no_sys : (Instr.sys 0x000#12).wellFormed = false := by decide
theorem test_cls_word_is_no_sys : (Instr.sys 0x0E0#12).wellFormed = false := by decide
theorem test_ret_word_is_no_sys : (Instr.sys 0x0EE#12).wellFormed = false := by decide
theorem test_other_sys_is_wellFormed : (Instr.sys 0x0E1#12).wellFormed = true := by decide

/-! ### Decoding (30_encoding.md R81, R85, R86; E1 to E10) -/

/-- E2: the fields of 0x8AB4. -/
theorem test_fields : opField 0x8AB4#16 = 0x8#4 ∧ xField 0x8AB4#16 = 10 ∧ yField 0x8AB4#16 = 11 ∧
    nField 0x8AB4#16 = 0x4#4 ∧ kkField 0x8AB4#16 = 0xB4#8 ∧ nnnField 0x8AB4#16 = 0xAB4#12 := by
  decide

/-- The exact words before the range (E5, E6), and the four NNN rows. -/
theorem test_decode_control :
    decode 0b0000000000000000#16 = some .halt ∧ decode 0b0000000011100000#16 = some .cls ∧
    decode 0b0000000011101110#16 = some .ret ∧ decode 0b0000000011101111#16 = some (.sys 0x0EF#12) ∧
    decode 0b0001101010111100#16 = some (.jp 0xABC#12) ∧
    decode 0b0010001100000000#16 = some (.call 0x300#12) ∧
    decode 0b1011111100000000#16 = some (.jpV0 0xF00#12) := by
  decide

theorem test_decode_skip :
    decode 0b0011010000101010#16 = some (.seImm 4 0x2A#8) ∧
    decode 0b0100010000101010#16 = some (.sneImm 4 0x2A#8) ∧
    decode 0b0101000100100000#16 = some (.seReg 1 2) ∧
    decode 0b1001000100100000#16 = some (.sneReg 1 2) := by
  decide

theorem test_decode_alu :
    decode 0b0110110011111111#16 = some (.ldImm 12 0xFF#8) ∧
    decode 0b0111001100001010#16 = some (.addImm 3 0x0A#8) ∧
    decode 0b1000000100100000#16 = some (.ldReg 1 2) ∧
    decode 0b1000000100100001#16 = some (.orReg 1 2) ∧
    decode 0b1000000100100010#16 = some (.andReg 1 2) ∧
    decode 0b1000000100100011#16 = some (.xorReg 1 2) ∧
    decode 0b1000101010110100#16 = some (.addReg 10 11) ∧
    decode 0b1000000100100101#16 = some (.subReg 1 2) ∧
    decode 0b1000001101000110#16 = some (.shr 3 4) ∧
    decode 0b1000000100100111#16 = some (.subn 1 2) ∧
    decode 0b1000001101001110#16 = some (.shl 3 4) ∧
    decode 0b1100001100001111#16 = some (.rnd 3 0x0F#8) := by
  decide

theorem test_decode_index_display :
    decode 0b1010001000011110#16 = some (.ldI 0x21E#12) ∧
    decode 0b1111001000011110#16 = some (.addI 2) ∧
    decode 0b1111010000101001#16 = some (.ldF 4) ∧ decode 0b1111001000110011#16 = some (.ldB 2) ∧
    decode 0b1111001001010101#16 = some (.ldMemVx 2) ∧
    decode 0b1111001001100101#16 = some (.ldVxMem 2) ∧
    decode 0b1101000100100101#16 = some (.drw 1 2 5) := by
  decide

theorem test_decode_keys_timers :
    decode 0b1110001010011110#16 = some (.skp 2) ∧ decode 0b1110001010100001#16 = some (.sknp 2) ∧
    decode 0b1111000100000111#16 = some (.ldVxDt 1) ∧ decode 0b1111100100001010#16 = some (.ldVxK 9) ∧
    decode 0b1111000000010101#16 = some (.ldDtVx 0) ∧ decode 0b1111001100011000#16 = some (.ldStVx 3) := by
  decide

/-- E7 to E10: illegal words. -/
theorem test_illegal_words :
    [0x5121#16, 0x512F#16, 0x9121#16, 0x900F#16, 0x8008#16, 0x8129#16, 0x812A#16, 0x812B#16,
      0x812C#16, 0x812D#16, 0x812F#16, 0xE000#16, 0xE19F#16, 0xE1A0#16, 0xE09D#16, 0xEFFF#16,
      0xF000#16, 0xF090#16, 0xF1FF#16, 0xF00B#16, 0xF075#16, 0xF085#16, 0xF030#16, 0xF002#16].all
      (fun w => (decode w).isNone) = true := by
  decide

/-- The decoder takes two bytes, high byte first, and leaves the rest. -/
theorem test_decodeBytes : decodeBytes [0xA2#8, 0x1E#8, 0x61#8] = .ok (.ldI 0x21E#12, [0x61#8]) := rfl
theorem test_decodeBytes_truncated : decodeBytes [0xA2#8] = .error .truncated := rfl
theorem test_decodeBytes_illegal : decodeBytes [0x51#8, 0x21#8] = .error (.illegalWord 0x5121#16) := rfl
theorem test_encodeBytes : encodeBytes (.drw 1 2 5) = [0xD1#8, 0x25#8] := by decide
theorem test_decodeTableWord :
    decodeTableWord 16 0xD125 = some (.drw 1 2 5) ∧ decodeTableWord 16 0x5121 = none := by
  decide

/-! ### Single steps -/

/-- Reset with the given registers. -/
def withRegs (regs : List (Reg × Byte)) : State :=
  regs.foldl (fun s p => s.setReg p.1 p.2) State.reset

/-- The same state with bytes in memory from `a` on. -/
def poke (a : Nat) (bytes : List Byte) (s : State) : State := { s with mem := s.mem.loadFrom a bytes }

/-- The same state with the inputs of its next tick. -/
def given (keys : BitVec 16) (rnd : Byte) (s : State) : State := { s with inputs := [⟨keys, rnd⟩] }

/-- The next state of one step that runs word `w` at `pc`. -/
def after (w : Nat) (s : State) : Option State :=
  match step (s.withFetchWord 16 w) with
  | .next t => some t
  | .fault _ => none
  | .refused _ => none

/-- The fault of one step that runs word `w` at `pc`. -/
def faultAfter (w : Nat) (s : State) : Option Fault :=
  match step (s.withFetchWord 16 w) with
  | .next _ => none
  | .fault f => some f
  | .refused _ => none

/-- The columns of a row that are on. -/
def onIn (py : Fin 32) (s : State) : List (Fin 64) := (List.finRange 64).filter (pixel s.fb py)

/-- Z2, K20: the halt tick moves `pc` and leaves the timers. -/
theorem test_halt : (after 0x0000 { State.reset with dt := 9#8, st := 9#8 }).map
    (fun t => (t.pc, t.dt, t.st)) = some (0x202#16, 9#8, 9#8) := by decide
/-- K19 -/
theorem test_sys : (after 0x0123 { State.reset with dt := 1#8 }).map
    (fun t => (t.pc, t.dt, t.st)) = some (0x202#16, 0#8, 0#8) := by decide
/-- F7 -/
theorem test_ret : (after 0x00EE { State.reset with sp := 2, stack := (State.reset.stack.set 1 0x456#16).set 0 0x222#16 }).map
    (fun t => (t.pc, t.sp.val, t.stack[1])) = some (0x456#16, 1, 0x456#16) := by decide
/-- F8 -/
theorem test_ret_empty : faultAfter 0x00EE State.reset = some .stackUnderflow := by decide
/-- F3 -/
theorem test_jp : (after 0x1301 State.reset).map (fun t => t.pc) = some 0x301#16 := by decide
/-- S12: a jump is not advanced twice. -/
theorem test_jp_back : (after 0x1204 { State.reset with pc := 0x20A#16 }).map (fun t => t.pc) =
    some 0x204#16 := by decide
/-- F5 -/
theorem test_call : (after 0x2300 { State.reset with sp := 15 }).map
    (fun t => (t.pc, t.sp.val, t.stack[15])) = some (0x300#16, 16, 0x202#16) := by decide
/-- F6 -/
theorem test_call_full : faultAfter 0x2300 { State.reset with sp := 16 } = some .stackOverflow := by decide
/-- F9 -/
theorem test_seImm : (after 0x342A (withRegs [(4, 0x2A#8)])).map (fun t => t.pc) = some 0x204#16 := by decide
/-- F10 -/
theorem test_seImm_no : (after 0x342A (withRegs [(4, 0x2B#8)])).map (fun t => t.pc) = some 0x202#16 := by decide
/-- F11 -/
theorem test_sneImm_no : (after 0x442A (withRegs [(4, 0x2A#8)])).map (fun t => t.pc) = some 0x202#16 := by decide
/-- F12 -/
theorem test_sneImm : (after 0x442A (withRegs [(4, 0x2B#8)])).map (fun t => t.pc) = some 0x204#16 := by decide
/-- F13 -/
theorem test_seReg : (after 0x5120 (withRegs [(1, 0x80#8), (2, 0x80#8)])).map (fun t => t.pc) = some 0x204#16 := by decide
/-- F14 -/
theorem test_seReg_no : (after 0x5120 (withRegs [(1, 0x80#8), (2, 0x7F#8)])).map (fun t => t.pc) = some 0x202#16 := by decide
/-- F16 -/
theorem test_sneReg : (after 0x9120 (withRegs [(1, 0x80#8), (2, 0x7F#8)])).map (fun t => t.pc) = some 0x204#16 := by decide
/-- F17 -/
theorem test_sneReg_self : (after 0x9330 State.reset).map (fun t => t.pc) = some 0x202#16 := by decide
/-- F20 -/
theorem test_jpV0 : (after 0xBFFF (withRegs [(0, 0xFF#8)])).map (fun t => t.pc) = some 0x10FE#16 := by decide
/-- F19: the offset is register 0, not 15. -/
theorem test_jpV0_register : (after 0xBF00 (withRegs [(0, 0xFF#8), (15, 7#8)])).map (fun t => t.pc) =
    some 0xFFF#16 := by decide
/-- E14, F20: a fetch past the end. -/
theorem test_fetch_out : tick { State.reset with pc := 0x10FE#16 } = .fault (.memoryBounds 0x10FE) := rfl
/-- E13 -/
theorem test_fetch_last_byte : tick { State.reset with pc := 0xFFF#16 } = .fault (.memoryBounds 0xFFF) := rfl
/-- E7 -/
theorem test_illegal_step : faultAfter 0x5121 State.reset = some (.decodeError 0x5121#16) := by decide
/-- E11: an odd `pc`. -/
theorem test_odd_pc : (after 0x6107 { State.reset with pc := 0x201#16 }).map (fun t => (t.reg 1, t.pc)) =
    some (7#8, 0x203#16) := by decide

/-- A1 -/
theorem test_ldImm : (after 0x6CFF State.reset).map (fun t => t.reg 12) = some 0xFF#8 := by decide
/-- A3, S4 -/
theorem test_addImm : (after 0x730A (withRegs [(3, 0xFA#8), (15, 0x5A#8)])).map
    (fun t => (t.reg 3, t.reg 15)) = some (0x04#8, 0x5A#8) := by decide
/-- A5 -/
theorem test_addImm_flag : (after 0x7F02 (withRegs [(15, 0xFF#8)])).map (fun t => t.reg 15) = some 0x01#8 := by decide
/-- A6 -/
theorem test_ldReg : (after 0x8120 (withRegs [(2, 0x33#8)])).map (fun t => (t.reg 1, t.reg 2)) =
    some (0x33#8, 0x33#8) := by decide
/-- A7 -/
theorem test_or : (after 0x8121 (withRegs [(1, 0xF0#8), (2, 0x0F#8), (15, 1#8)])).map
    (fun t => (t.reg 1, t.reg 15)) = some (0xFF#8, 1#8) := by decide
/-- A8 -/
theorem test_and : (after 0x8122 (withRegs [(1, 0xF0#8), (2, 0x3C#8), (15, 1#8)])).map
    (fun t => (t.reg 1, t.reg 15)) = some (0x30#8, 1#8) := by decide
/-- A9 -/
theorem test_xor : (after 0x8123 (withRegs [(1, 0xF0#8), (2, 0x3C#8), (15, 1#8)])).map
    (fun t => (t.reg 1, t.reg 15)) = some (0xCC#8, 1#8) := by decide
/-- A13 -/
theorem test_add : (after 0x8014 (withRegs [(0, 0xFF#8), (1, 0xFF#8)])).map
    (fun t => (t.reg 0, t.reg 15)) = some (0xFE#8, 1#8) := by decide
/-- A16: with `x` 15 the result wins over the carry. -/
theorem test_add_flag : (after 0x8F14 (withRegs [(15, 0xFF#8), (1, 0x01#8)])).map (fun t => t.reg 15) =
    some 0x00#8 := by decide
/-- A19 -/
theorem test_sub : (after 0x8125 (withRegs [(1, 3#8), (2, 5#8)])).map (fun t => (t.reg 1, t.reg 15)) =
    some (0xFE#8, 0#8) := by decide
/-- A20: equal operands clear the flag. -/
theorem test_sub_equal : (after 0x8125 (withRegs [(1, 7#8), (2, 7#8), (15, 1#8)])).map
    (fun t => (t.reg 1, t.reg 15)) = some (0#8, 0#8) := by decide
/-- A25: `V[x]` is shifted, `y` ignored. -/
theorem test_shr : (after 0x8346 (withRegs [(3, 0x05#8), (4, 0xF0#8)])).map
    (fun t => (t.reg 3, t.reg 4, t.reg 15)) = some (0x02#8, 0xF0#8, 1#8) := by decide
/-- A30 -/
theorem test_shr_flag : (after 0x8F06 (withRegs [(15, 0x02#8)])).map (fun t => t.reg 15) = some 0x01#8 := by decide
/-- A22 -/
theorem test_subn : (after 0x8127 (withRegs [(1, 3#8), (2, 5#8)])).map
    (fun t => (t.reg 1, t.reg 2, t.reg 15)) = some (2#8, 5#8, 1#8) := by decide
/-- A24 -/
theorem test_subn_equal : (after 0x8127 (withRegs [(1, 9#8), (2, 9#8), (15, 1#8)])).map
    (fun t => (t.reg 1, t.reg 15)) = some (0#8, 0#8) := by decide
/-- A31 -/
theorem test_shl : (after 0x834E (withRegs [(3, 0x81#8), (4, 0x0F#8)])).map
    (fun t => (t.reg 3, t.reg 4, t.reg 15)) = some (0x02#8, 0x0F#8, 1#8) := by decide
/-- A35 -/
theorem test_shl_flag : (after 0x8FFE (withRegs [(15, 0x81#8)])).map (fun t => t.reg 15) = some 0x02#8 := by decide
/-- A36 -/
theorem test_rnd : (after 0xC30F (given 0#16 0xA7#8 State.reset)).map (fun t => t.reg 3) = some 0x07#8 := by decide
/-- A39 -/
theorem test_rnd_flag : (after 0xC3F0 (given 0#16 0xFF#8 (withRegs [(15, 9#8)]))).map
    (fun t => (t.reg 3, t.reg 15)) = some (0xF0#8, 9#8) := by decide

/-- M1 -/
theorem test_ldI : (after 0xAFFF State.reset).map (fun t => t.i) = some 0xFFF#16 := by decide
/-- M3: past 0xFFF, no flag. -/
theorem test_addI : (after 0xF21E { withRegs [(2, 1#8)] with i := 0xFFF#16 }).map
    (fun t => (t.i, t.reg 15)) = some (0x1000#16, 0#8) := by decide
/-- M5 -/
theorem test_addI_wrap : (after 0xF21E { withRegs [(2, 0xFF#8)] with i := 0xFF80#16 }).map (fun t => t.i) =
    some 0x7F#16 := by decide
/-- M6 -/
theorem test_ldF : (after 0xF429 (withRegs [(4, 0x0F#8)])).map (fun t => t.i) = some 0x4B#16 := by decide
/-- S9 -/
theorem test_ldF_masked : (after 0xF029 (withRegs [(0, 0x1A#8)])).map (fun t => t.i) = some 0x32#16 := by decide
/-- M9 -/
theorem test_ldB : (after 0xF233 { withRegs [(2, 254#8)] with i := 0x300#16 }).map
    (fun t => (t.mem.read 0x300, t.mem.read 0x301, t.mem.read 0x302, t.i)) =
    some (2#8, 5#8, 4#8, 0x300#16) := by decide
/-- M15 -/
theorem test_ldB_out : faultAfter 0xF033 { State.reset with i := 0xFFE#16 } = some (.memoryBounds 0x1000) := by
  decide
/-- M16 -/
theorem test_ldMemVx : (after 0xF255
      { withRegs [(0, 0x11#8), (1, 0x22#8), (2, 0x33#8), (3, 0x44#8)] with i := 0x400#16 }).map
    (fun t => (t.mem.read 0x400, t.mem.read 0x402, t.mem.read 0x403)) =
    some (0x11#8, 0x33#8, 0#8) := by decide
/-- M19 -/
theorem test_ldMemVx_out : faultAfter 0xFF55 { State.reset with i := 0xFF1#16 } =
    some (.memoryBounds 0x1000) := by decide
/-- M20 -/
theorem test_ldVxMem : (after 0xF265
      (poke 0x400 [0x11#8, 0x22#8, 0x33#8, 0x44#8] { State.reset with i := 0x400#16 })).map
    (fun t => (t.reg 0, t.reg 1, t.reg 2, t.reg 3)) = some (0x11#8, 0x22#8, 0x33#8, 0#8) := by decide
/-- M24 -/
theorem test_ldVxMem_out : faultAfter 0xF065 { State.reset with i := 0x1000#16 } =
    some (.memoryBounds 0x1000) := by decide

/-- G1v -/
theorem test_cls : (after 0x00E0 { withRegs [(15, 1#8)] with fb := togglePixel blankScreen 3 5 }).map
    (fun t => (onIn 3 t, t.reg 15)) = some ([], 1#8) := by decide
/-- G4v, S6: a row wraps at the right edge. -/
theorem test_drw_wrap : (after 0xD121 (poke 0x300 [0xFF#8] { withRegs [(1, 60#8)] with i := 0x300#16 })).map
    (fun t => (onIn 0 t, t.reg 15)) = some ([0, 1, 2, 3, 60, 61, 62, 63], 0#8) := by decide
/-- G8v: one collision suffices. -/
theorem test_drw_collision : (after 0xD121
      (poke 0x300 [0x30#8] { State.reset with i := 0x300#16, fb := togglePixel blankScreen 0 3 })).map
    (fun t => (onIn 0 t, t.reg 15)) = some ([2], 1#8) := by decide

/-- K1 -/
theorem test_skp : (after 0xE29E (given 0x0080#16 0#8 (withRegs [(2, 7#8)]))).map (fun t => t.pc) =
    some 0x204#16 := by decide
/-- K6 -/
theorem test_skp_out : faultAfter 0xE29E (withRegs [(2, 0x10#8)]) = some (.keyIndex 0x10#8) := by decide
/-- K3 -/
theorem test_sknp : (after 0xE2A1 (given 0x0080#16 0#8 (withRegs [(2, 7#8)]))).map (fun t => t.pc) =
    some 0x202#16 := by decide
/-- K7 -/
theorem test_sknp_out : faultAfter 0xE2A1 (given 0x0080#16 0#8 (withRegs [(2, 0x17#8)])) =
    some (.keyIndex 0x17#8) := by decide
/-- K8, S10: no key, the same instruction again; the timers count. -/
theorem test_ldVxK_wait : (after 0xF20A (given 0#16 0#8 { State.reset with dt := 3#8, st := 1#8 })).map
    (fun t => (t.pc, t.reg 2, t.dt, t.st)) = some (0x200#16, 0#8, 2#8, 0#8) := by decide
/-- K9 -/
theorem test_ldVxK : (after 0xF20A (given 0x0080#16 0#8 State.reset)).map (fun t => (t.pc, t.reg 2)) =
    some (0x202#16, 7#8) := by decide
/-- K12 -/
theorem test_ldVxDt : (after 0xF107 { State.reset with dt := 4#8 }).map (fun t => (t.reg 1, t.dt)) =
    some (4#8, 3#8) := by decide
/-- K14 -/
theorem test_ldDtVx : (after 0xF015 (withRegs [(0, 5#8)])).map (fun t => t.dt) = some 4#8 := by decide
/-- K15 -/
theorem test_ldDtVx_zero : (after 0xF015 { State.reset with dt := 9#8 }).map (fun t => t.dt) = some 0#8 := by decide
/-- K17 -/
theorem test_ldStVx : (after 0xF318 (withRegs [(3, 2#8)])).map (fun t => t.st) = some 1#8 := by decide

/-- Z5: the load of one byte. -/
theorem test_load : (boot [0x61#8]).map (fun s => (s.mem.read 0x200, s.mem.read 0x201, s.pc)) =
    some (0x61#8, 0#8, 0x200#16) := by decide
/-- S11, R53: the first and last byte of the font. -/
theorem test_font : State.reset.mem.read 0x000 = 0xF0#8 ∧ State.reset.mem.read 0x04F = 0x80#8 ∧
    State.reset.mem.read 0x050 = 0#8 ∧ font.length = 80 := by decide

/-! ### Witnesses: for each statement with hypotheses, a state and operands that meet them all, at the
boundaries of their ranges. `witness_<Name>` belongs to Obligations.<Name>. -/

/-- Reset with word `w` at `pc`. -/
def holding (w : Nat) (s : State) : State := s.withFetchWord 16 w

theorem witness_DecodeOfEncode : (Instr.sys 0x0EF#12).wellFormed = true ∧
    (Instr.drw 15 0 15).wellFormed = true := by decide

theorem witness_EncodeOfDecode : decode 0x8FFE#16 = some (.shl 15 15) := by decide

/-- A fetch at the last place there is (E12), and an instruction that faults (K21). -/
theorem witness_StepRunsDecodedInstruction_next :
    ∃ t, (poke 0xFFE [0x12#8] { State.reset with pc := 0xFFE#16 }).pc.toNat ≤ 0x0FFE ∧
      decode (BitVec.ofNat 16 (0x100 *
        ((poke 0xFFE [0x12#8] { State.reset with pc := 0xFFE#16 }).mem.read 0xFFE).toNat +
        ((poke 0xFFE [0x12#8] { State.reset with pc := 0xFFE#16 }).mem.read 0xFFF).toNat)) =
          some (.jp 0x200#12) ∧
      exec (.jp 0x200#12) { poke 0xFFE [0x12#8] { State.reset with pc := 0xFFE#16 } with
        pc := 0xFFE#16 + 2#16 } = .next t :=
  ⟨_, by decide, by decide, rfl⟩

theorem witness_StepRunsDecodedInstruction_fault :
    (holding 0x00EE State.reset).pc.toNat ≤ 0x0FFE ∧
      decode (BitVec.ofNat 16 (0x100 * ((holding 0x00EE State.reset).mem.read 0x200).toNat +
        ((holding 0x00EE State.reset).mem.read 0x201).toNat)) = some .ret ∧
      exec .ret { holding 0x00EE State.reset with pc := 0x202#16 } = .fault .stackUnderflow :=
  ⟨by decide, by decide, rfl⟩

theorem witness_FetchReadsTwoBytesOrFaults :
    0x0FFE < ({ State.reset with pc := 0xFFF#16 } : State).pc.toNat ∧
      ({ State.reset with pc := 0xFFE#16 } : State).pc.toNat ≤ 0x0FFE := by decide

/-- Each clause: the halt word, a word that no row selects, a word that a row selects. -/
theorem witness_DispatchFollowsTheTable :
    State.reset.fetchWord = .ok 0x0000#16 ∧ (∃ t, tick State.reset = .next (.halt, t)) ∧
    (holding 0x5121 State.reset).fetchWord = .ok 0x5121#16 ∧
    opcodeRows.all (fun r => !r.selects 0x5121#16) = true ∧
    (holding 0xD125 State.reset).fetchWord = .ok 0xD125#16 ∧
    (OpcodeRow.mk 0xF000#16 0xD000#16).selects 0xD125#16 = true ∧
    (OpcodeRow.mk 0xF000#16 0xD000#16) ∈ opcodeRows :=
  ⟨rfl, ⟨_, rfl⟩, rfl, by decide, rfl, by decide, by decide⟩

theorem witness_HaltTickOnlyAdvancesPc : State.reset.fetchWord = .ok 0x0000#16 := rfl

/-- A step that goes on, with its word and instruction: the hypotheses of the statements about every
tick. -/
theorem witness_tick_load_timer : ∃ t, (holding 0xF015 (withRegs [(0, 0xFF#8)])).fetchWord = .ok 0xF015#16 ∧
    decode 0xF015#16 = some (.ldDtVx 0) ∧ step (holding 0xF015 (withRegs [(0, 0xFF#8)])) = .next t ∧
    storesToMemory (.ldDtVx 0) = false ∧ touchesStack (.ldDtVx 0) = false ∧
    writesIndex (.ldDtVx 0) = false ∧ mayWriteReg (.ldDtVx 0) 0 = false :=
  ⟨_, rfl, by decide, rfl, rfl, rfl, rfl, by decide⟩

theorem witness_TimersCountOkTicks_halt : ∃ t, State.reset.fetchWord = .ok 0x0000#16 ∧
    decode 0x0000#16 = some .halt ∧ step State.reset = .next t := ⟨_, rfl, by decide, rfl⟩

/-- The furthest jump there is (F20). -/
theorem witness_PcAfterEveryTick : ∃ t, (holding 0xBFFF (withRegs [(0, 0xFF#8)])).fetchWord = .ok 0xBFFF#16 ∧
    decode 0xBFFF#16 = some (.jpV0 0xFFF#12) ∧
    step (holding 0xBFFF (withRegs [(0, 0xFF#8)])) = .next t := ⟨_, rfl, by decide, rfl⟩

theorem witness_InvAtFirstTick : ∃ s, boot [0x61#8] = some s := ⟨_, rfl⟩

theorem witness_StepKeepsInv : ∃ t, Inv (holding 0xBFFF (withRegs [(0, 0xFF#8)])) ∧
    step (holding 0xBFFF (withRegs [(0, 0xFF#8)])) = .next t :=
  ⟨_, ⟨by decide, by decide, by decide⟩, rfl⟩

/-- Both sides of every bound that `faultOf` draws. -/
theorem witness_ExecFaultsExactlyWhen :
    faultOf (.call 0) { State.reset with sp := 15 } = none ∧
    faultOf (.call 0) { State.reset with sp := 16 } = some .stackOverflow ∧
    faultOf .ret { State.reset with sp := 1 } = none ∧
    faultOf .ret State.reset = some .stackUnderflow ∧
    faultOf (.drw 0 0 1) { State.reset with i := 0xFFF#16 } = none ∧
    faultOf (.drw 0 0 0) { State.reset with i := 0xFFFF#16 } = none ∧
    faultOf (.drw 0 0 2) { State.reset with i := 0xFFF#16 } = some (.memoryBounds 0x1000) ∧
    faultOf (.ldB 0) { State.reset with i := 0xFFD#16 } = none ∧
    faultOf (.ldB 0) { State.reset with i := 0xFFE#16 } = some (.memoryBounds 0x1000) ∧
    faultOf (.ldMemVx 15) { State.reset with i := 0xFF0#16 } = none ∧
    faultOf (.ldMemVx 15) { State.reset with i := 0xFF1#16 } = some (.memoryBounds 0x1000) ∧
    faultOf (.ldVxMem 0) { State.reset with i := 0xFFF#16 } = none ∧
    faultOf (.ldVxMem 1) { State.reset with i := 0xFFFF#16 } = some (.memoryBounds 0xFFFF) ∧
    faultOf (.skp 2) (withRegs [(2, 15#8)]) = none ∧
    faultOf (.sknp 2) (withRegs [(2, 16#8)]) = some (.keyIndex 16#8) := by decide

/-- A tick of CALL, for the statement about the stack. -/
theorem witness_OnlyCallAndReturnTouchStack : ∃ t,
    (holding 0x2300 { State.reset with sp := 15 }).fetchWord = .ok 0x2300#16 ∧
    decode 0x2300#16 = some (.call 0x300#12) ∧
    step (holding 0x2300 { State.reset with sp := 15 }) = .next t ∧
    touchesStack (.call 0x300#12) = true := ⟨_, rfl, by decide, rfl, rfl⟩

theorem witness_OnlyClearAndDrawReachScreen : ∃ t, writesScreen (.ldB 0) = false ∧
    exec (.ldB 0) { State.reset with i := 0x300#16 } = .next t := ⟨_, rfl, rfl⟩

/-- Each clause has a next state. -/
theorem witness_FlagRegisterSideEffects : (0 : Reg) ≠ flagReg ∧
    (∃ t, exec (.addReg 0 15) State.reset = .next t) ∧ (∃ t, exec (.subReg 0 1) State.reset = .next t) ∧
    (∃ t, exec (.subn 0 1) State.reset = .next t) ∧ (∃ t, exec (.shr 0 1) State.reset = .next t) ∧
    (∃ t, exec (.shl 0 1) State.reset = .next t) ∧
    (∃ t, exec (.drw 0 1 15) State.reset = .next t) ∧
    mayWriteReg (.ldVxMem 14) flagReg = false ∧ ∃ t, exec (.ldVxMem 14) State.reset = .next t :=
  ⟨by decide, ⟨_, rfl⟩, ⟨_, rfl⟩, ⟨_, rfl⟩, ⟨_, rfl⟩, ⟨_, rfl⟩, ⟨_, rfl⟩, by decide, ⟨_, rfl⟩⟩

/-- Other inputs that agree in the key bits alone, for an instruction that queries them. -/
theorem witness_InputsReachOnlyTheirInstructions : ∃ t,
    (usesKeys (.skp 0) = true → ((given 1#16 5#8 State.reset).withInputs [⟨1#16, 9#8⟩] 3).input.keys =
      (given 1#16 5#8 State.reset).input.keys) ∧
    (usesRandom (.skp 0) = true → ((given 1#16 5#8 State.reset).withInputs [⟨1#16, 9#8⟩] 3).input.rnd =
      (given 1#16 5#8 State.reset).input.rnd) ∧
    exec (.skp 0) (given 1#16 5#8 State.reset) = .next t :=
  ⟨_, fun _ => rfl, fun h => (Bool.false_ne_true h).elim, rfl⟩

/-- P5, tick 4: F155 stores the word that is fetched next. -/
theorem witness_StoreIsFetched : ∃ t,
    ({ withRegs [(0, 0x6A#8), (1, 0x55#8)] with pc := 0x208#16, i := 0x208#16 } : State).mem.wf = true ∧
    (0 : Reg) < 1 ∧
    exec (.ldMemVx 1) { withRegs [(0, 0x6A#8), (1, 0x55#8)] with pc := 0x208#16, i := 0x208#16 } = .next t ∧
    (0x208#16 : Word).toNat = (0x208#16 : Word).toNat + (0 : Reg).val :=
  ⟨_, rfl, by decide, rfl, rfl⟩

theorem witness_SysDoesNothing : (0x0EF#12 : Addr12) ≠ 0x000#12 ∧ (0x0EF#12 : Addr12) ≠ 0x0E0#12 ∧
    (0x0EF#12 : Addr12) ≠ 0x0EE#12 ∧
    (holding 0x00EF State.reset).fetchWord = .ok (wordNnn 0x0 0x0EF#12) :=
  ⟨by decide, by decide, by decide, rfl⟩

theorem witness_ReturnPopsOrUnderflows : 0 < ({ State.reset with sp := 1 } : State).sp.val ∧
    State.reset.sp.val = 0 := by decide

theorem witness_CallPushesOrOverflows : ({ State.reset with sp := 15 } : State).sp.val < 16 ∧
    ({ State.reset with sp := 16 } : State).sp.val = 16 := by decide

theorem witness_SeventeenthCallOverflows : ({ State.reset with sp := 16 } : State).sp.val = 16 ∧
    State.reset.sp.val = 0 ∧ (List.replicate 16 (0x200#12 : Addr12)).length = 16 := by decide

theorem witness_ReturnGoesBehindItsCall : ∃ t, exec (.call 0x300#12) { State.reset with sp := 15 } = .next t ∧
    StackSame t { t with pc := 0#16 } := ⟨_, rfl, rfl, rfl⟩

theorem witness_flag_register_apart : (14 : Reg) ≠ flagReg := by decide

theorem witness_BcdStoresDigits :
    (({ State.reset with i := 0xFFD#16 } : State).i.toNat + 2 ≤ 0xFFF ∧
      ({ State.reset with i := 0xFFD#16 } : State).mem.wf = true) ∧
    0xFFF < ({ State.reset with i := 0xFFE#16 } : State).i.toNat + 2 := by decide

theorem witness_StoreRegistersInclusive :
    (({ State.reset with i := 0xFF0#16 } : State).i.toNat + (15 : Reg).val ≤ 0xFFF ∧
      ({ State.reset with i := 0xFF0#16 } : State).mem.wf = true) ∧
    0xFFF < ({ State.reset with i := 0xFF1#16 } : State).i.toNat + (15 : Reg).val := by decide

theorem witness_LoadRegistersInclusive :
    ({ State.reset with i := 0xFFF#16 } : State).i.toNat + (0 : Reg).val ≤ 0xFFF ∧
    0xFFF < ({ State.reset with i := 0xFFF#16 } : State).i.toNat + (1 : Reg).val := by decide

theorem witness_DrawTogglesCoveredPixels : (List.replicate 15 0xFF#8).length ≤ 15 ∧
    Covers 60 0 [0xFF#8] 0 3 ∧ ¬ Covers 60 0 [0xFF#8] 1 3 :=
  ⟨by decide, ⟨0, 7, by decide, by decide, by decide, by decide, by decide⟩, by
    rintro ⟨r, c, hr, -, -, hy, -⟩
    simp only [List.length_singleton] at hr
    have h1 : ((1 : Fin 32).val) = 1 := rfl
    omega⟩

theorem witness_SpritesWrapAtEdges : (List.replicate 15 0x01#8).length ≤ 15 ∧
    14 < (List.replicate 15 0x01#8).length ∧ 7 < 8 ∧
    ((List.replicate 15 0x01#8).getD 14 0).getLsbD (7 - 7) = true := by decide

theorem witness_DrawInstruction :
    (({ State.reset with i := 0xFFF#16 } : State).i.toNat + (1 : Fin 16).val ≤ 0x1000) ∧
    (0 : Fin 16).val = 0 ∧
    ((2 : Fin 16).val ≠ 0 ∧ 0x1000 < ({ State.reset with i := 0xFFF#16 } : State).i.toNat + (2 : Fin 16).val) := by
  decide

theorem witness_DrawTwiceRestores : ∃ t, (14 : Reg) ≠ flagReg ∧ (0 : Reg) ≠ flagReg ∧
    exec (.drw 14 0 5) State.reset = .next t := ⟨_, by decide, by decide, rfl⟩

theorem witness_SkipOnKey : ((withRegs [(2, 15#8)]).reg 2).toNat ≤ 15 ∧
    15 < ((withRegs [(2, 16#8)]).reg 2).toNat := by decide

theorem witness_WaitForKey : (given 0#16 0#8 State.reset).input.keys = 0#16 ∧
    (given 0x8000#16 0#8 State.reset).input.keys ≠ 0#16 ∧
    (holding 0xF20A (given 0#16 0#8 State.reset)).fetchWord = .ok (wordXkk 0xF 2 0x0A) ∧
    (holding 0xF20A (given 0#16 0#8 State.reset)).input.keys = 0#16 :=
  ⟨by decide, by decide, rfl, by decide⟩

theorem witness_TimerTransfers :
    (holding 0xF307 State.reset).fetchWord = .ok (wordXkk 0xF 3 0x07) ∧
    (holding 0xF315 State.reset).fetchWord = .ok (wordXkk 0xF 3 0x15) ∧
    (holding 0xF318 State.reset).fetchWord = .ok (wordXkk 0xF 3 0x18) := ⟨rfl, rfl, rfl⟩

/-- One tick of a jump to itself with the delay timer running. -/
theorem witness_DelayCountsTicks : ∃ t,
    LeavesDelayAlone 1 (holding 0x1200 { State.reset with dt := 9#8 }) ∧
    stepsTo 1 (holding 0x1200 { State.reset with dt := 9#8 }) t := by
  refine ⟨_, ⟨fun w hw => ?_, fun _ _ => trivial⟩, _, rfl, rfl⟩
  have h : (holding 0x1200 { State.reset with dt := 9#8 }).fetchWord = .ok 0x1200#16 := rfl
  rw [h] at hw
  cases hw
  exact ⟨by decide, by decide⟩

theorem witness_ResetThenLoad : ([] : List Byte).length ≤ 3583 ∧ (15 : Nat) < 16 ∧ (4 : Nat) < 5 ∧
    0x050 ≤ (0x050 : Nat) := by decide

theorem witness_LoadChecksSize : (List.replicate 3583 (0#8 : Byte)).length ≤ 3583 ∧
    3583 < (List.replicate 3584 (0#8 : Byte)).length := by
  rw [List.length_replicate, List.length_replicate]
  omega

theorem witness_RunEndIsFinal : (1 : Nat) ≤ 2 ∧ (∃ t, runTicks 1 State.reset = .halted t) ∧
    ∃ f, runTicks 1 (holding 0x00EE State.reset) = .faulted f := ⟨by decide, ⟨_, rfl⟩, ⟨_, rfl⟩⟩

end Sys2Proof.Tests
end

section
/-! SUPPORT. The decoder against the encoder and the opcode table: a decoded word is its instruction's
word (R84, R85), the words that decode to nothing by their fields (R86), and that these are the words no
row selects. -/

namespace Sys2Proof

/-! A word is the pattern of its format with its own fields put back. -/

theorem packNnn_of_opField {w : Word} {op : BitVec 4} (h : opField w = op) :
    packNnn op (nnnField w) = w :=
  h ▸ packNnn_fields w

theorem packXkk_of_opField {w : Word} {op : BitVec 4} (h : opField w = op) :
    packXkk op (xField w) (kkField w) = w :=
  h ▸ packXkk_fields w

theorem packXkk_of_fields {w : Word} {op : BitVec 4} {kk : Byte} (h : opField w = op)
    (hkk : kkField w = kk) : packXkk op (xField w) kk = w :=
  hkk ▸ packXkk_of_opField h

theorem packXyn_of_opField {w : Word} {op : BitVec 4} (h : opField w = op) :
    packXyn op (xField w) (yField w) (nField w) = w :=
  h ▸ packXyn_fields w

theorem packXyn_of_fields {w : Word} {op n : BitVec 4} (h : opField w = op) (hn : nField w = n) :
    packXyn op (xField w) (yField w) n = w :=
  hn ▸ packXyn_of_opField h

/-! The word of a decoded instruction, family by family (R85). -/

theorem encode_decodeZeroPage {w : Word} (h : opField w = 0x0#4) : encode (decodeZeroPage w) = w := by
  unfold decodeZeroPage
  split
  · next hw => exact hw.symm
  split
  · next hw => exact hw.symm
  split
  · next hw => exact hw.symm
  · exact packNnn_of_opField h

theorem encode_of_decodeAlu {w : Word} {i : Instr} (h : opField w = 0x8#4)
    (hd : decodeAlu w = some i) : encode i = w := by
  unfold decodeAlu at hd
  split at hd <;> cases hd <;> exact packXyn_of_fields h ‹_›

theorem encode_of_decodeKey {w : Word} {i : Instr} (h : opField w = 0xE#4)
    (hd : decodeKey w = some i) : encode i = w := by
  unfold decodeKey at hd
  split at hd <;> cases hd <;> exact packXkk_of_fields h ‹_›

theorem encode_of_decodeMisc {w : Word} {i : Instr} (h : opField w = 0xF#4)
    (hd : decodeMisc w = some i) : encode i = w := by
  unfold decodeMisc at hd
  split at hd <;> cases hd <;> exact packXkk_of_fields h ‹_›

/-- A word that decodes is the word of the instruction it decodes to: no bit is lost (R84, R88). -/
theorem encode_of_decode {w : Word} {i : Instr} (hd : decode w = some i) : encode i = w := by
  unfold decode at hd
  split at hd
  case h_1 h => cases hd; exact encode_decodeZeroPage h
  case h_2 h => cases hd; exact packNnn_of_opField h
  case h_3 h => cases hd; exact packNnn_of_opField h
  case h_4 h => cases hd; exact packXkk_of_opField h
  case h_5 h => cases hd; exact packXkk_of_opField h
  case h_6 h =>
    split at hd <;> cases hd
    exact packXyn_of_fields h ‹_›
  case h_7 h => cases hd; exact packXkk_of_opField h
  case h_8 h => cases hd; exact packXkk_of_opField h
  case h_9 h => exact encode_of_decodeAlu h hd
  case h_10 h =>
    split at hd <;> cases hd
    exact packXyn_of_fields h ‹_›
  case h_11 h => cases hd; exact packNnn_of_opField h
  case h_12 h => cases hd; exact packNnn_of_opField h
  case h_13 h => cases hd; exact packXkk_of_opField h
  case h_14 h => cases hd; exact packXyn_of_opField h
  case h_15 h => exact encode_of_decodeKey h hd
  case h_16 h => exact encode_of_decodeMisc h hd
  case h_17 => cases hd

/-- 0x0000 is the only word of HALT (R118). -/
theorem decode_eq_some_halt_iff (w : Word) : decode w = some .halt ↔ w = 0x0000#16 :=
  ⟨fun hd => (encode_of_decode hd).symm, fun hw => hw ▸ rfl⟩

/-- A word of the `0` page that is none of its three exact words is SYS (R84, R89). -/
theorem decode_sys {nnn : Addr12} (h0 : nnn ≠ 0x000#12) (hcls : nnn ≠ 0x0E0#12)
    (hret : nnn ≠ 0x0EE#12) : decode (packNnn 0x0#4 nnn) = some (.sys nnn) := by
  have hne : ∀ a : Addr12, nnn ≠ a → packNnn 0x0#4 nnn ≠ packNnn 0x0#4 a := fun a h he =>
    h (by simpa using congrArg nnnField he)
  have hw0 : packNnn 0x0#4 nnn ≠ 0x0000#16 := hne _ h0
  have hwcls : packNnn 0x0#4 nnn ≠ 0x00E0#16 := hne _ hcls
  have hwret : packNnn 0x0#4 nnn ≠ 0x00EE#16 := hne _ hret
  simp [decode, decodeZeroPage, hw0, hwcls, hwret]

/-! The illegal words by their fields (R86). -/

theorem decodeAlu_eq_none_iff (w : Word) : decodeAlu w = none ↔
    nField w ∉ [0x0#4, 0x1#4, 0x2#4, 0x3#4, 0x4#4, 0x5#4, 0x6#4, 0x7#4, 0xE#4] := by
  unfold decodeAlu
  split <;> simp_all

theorem decodeKey_eq_none_iff (w : Word) : decodeKey w = none ↔ kkField w ∉ [0x9E#8, 0xA1#8] := by
  unfold decodeKey
  split <;> simp_all

theorem decodeMisc_eq_none_iff (w : Word) : decodeMisc w = none ↔
    kkField w ∉ [0x07#8, 0x0A#8, 0x15#8, 0x18#8, 0x1E#8, 0x29#8, 0x33#8, 0x55#8, 0x65#8] := by
  unfold decodeMisc
  split <;> simp_all

/-- The words that decode to nothing, by the major opcode and the low nibble or low byte (R86, R87). -/
theorem decode_eq_none_iff (w : Word) : decode w = none ↔
    (opField w = 0x5#4 ∧ nField w ≠ 0x0#4) ∨ (opField w = 0x9#4 ∧ nField w ≠ 0x0#4) ∨
    (opField w = 0x8#4 ∧ decodeAlu w = none) ∨ (opField w = 0xE#4 ∧ decodeKey w = none) ∨
    (opField w = 0xF#4 ∧ decodeMisc w = none) := by
  unfold decode
  split
  case h_17 =>
    have hlt := (opField w).isLt
    simp only [imp_false, ← BitVec.toNat_inj, BitVec.toNat_ofNat] at *
    omega
  all_goals simp [*]

/-! Legality reads no more of a word than the mask of a row under the same major opcode covers (R84). -/

theorem decode_eq_none_congr_nibble {w p : Word} (hop : opField w = opField p)
    (hn : nField w = nField p) (hp : opField p ∈ [0x5#4, 0x8#4, 0x9#4]) :
    decode w = none ↔ decode p = none := by
  simp only [List.mem_cons, List.not_mem_nil, or_false] at hp
  rcases hp with h | h | h <;> simp [decode_eq_none_iff, decodeAlu_eq_none_iff, hop, hn, h]

theorem decode_eq_none_congr_byte {w p : Word} (hop : opField w = opField p)
    (hkk : kkField w = kkField p) (hp : opField p ∈ [0xE#4, 0xF#4]) :
    decode w = none ↔ decode p = none := by
  simp only [List.mem_cons, List.not_mem_nil, or_false] at hp
  rcases hp with h | h <;>
    simp [decode_eq_none_iff, decodeKey_eq_none_iff, decodeMisc_eq_none_iff, hop, hkk, h]

theorem decode_ne_none_of_opField {w : Word}
    (h : opField w ∉ [0x5#4, 0x8#4, 0x9#4, 0xE#4, 0xF#4]) : decode w ≠ none := by
  simp only [List.mem_cons, List.not_mem_nil, or_false, not_or] at h
  simp [decode_eq_none_iff, h]

/-! What a row's selecting a word says of the word's fields, for each mask of R85. -/

theorem opField_of_selects {w p : Word} (h : (OpcodeRow.mk 0xF000#16 p).selects w = true) :
    opField w = opField p := by
  have hp : packNnn (opField w) 0#12 = p := by simpa [OpcodeRow.selects, and_mask_op] using h
  rw [← hp, opField_packNnn]

theorem opField_nField_of_selects {w p : Word}
    (h : (OpcodeRow.mk 0xF00F#16 p).selects w = true) :
    opField w = opField p ∧ nField w = nField p := by
  have hp : packXyn (opField w) 0 0 (nField w) = p := by
    simpa [OpcodeRow.selects, and_mask_op_n] using h
  rw [← hp, opField_packXyn, nField_packXyn]
  exact ⟨rfl, rfl⟩

theorem opField_kkField_of_selects {w p : Word}
    (h : (OpcodeRow.mk 0xF0FF#16 p).selects w = true) :
    opField w = opField p ∧ kkField w = kkField p := by
  have hp : packXkk (opField w) 0 (kkField w) = p := by
    simpa [OpcodeRow.selects, and_mask_op_kk] using h
  rw [← hp, opField_packXkk, kkField_packXkk]
  exact ⟨rfl, rfl⟩

theorem eq_of_selects {w p : Word} (h : (OpcodeRow.mk 0xFFFF#16 p).selects w = true) : w = p := by
  have hw : w &&& 0xFFFF#16 = w := BitVec.and_allOnes
  simpa [OpcodeRow.selects, hw] using h

/-! The decoder against the table, as far as legality goes. -/

/-- Every row's pattern is a legal word, and its mask covers the fields that legality reads under the
pattern's major opcode (R85). -/
theorem opcodeRows_pattern_mask : ∀ r ∈ opcodeRows, decode r.pattern ≠ none ∧
    (r.mask = 0xFFFF#16 ∨
      (r.mask = 0xF000#16 ∧ opField r.pattern ∉ [0x5#4, 0x8#4, 0x9#4, 0xE#4, 0xF#4]) ∨
      (r.mask = 0xF00F#16 ∧ opField r.pattern ∈ [0x5#4, 0x8#4, 0x9#4]) ∨
      (r.mask = 0xF0FF#16 ∧ opField r.pattern ∈ [0xE#4, 0xF#4])) := by
  decide

/-- A word that a row selects decodes (R84). -/
theorem decode_ne_none_of_selects {w : Word} {r : OpcodeRow} (hr : r ∈ opcodeRows)
    (hs : r.selects w = true) : decode w ≠ none := by
  obtain ⟨hpat, hmask⟩ := opcodeRows_pattern_mask r hr
  obtain ⟨mask, p⟩ := r
  rcases hmask with rfl | ⟨rfl, hop⟩ | ⟨rfl, hop⟩ | ⟨rfl, hop⟩
  · exact eq_of_selects hs ▸ hpat
  · exact decode_ne_none_of_opField (opField_of_selects hs ▸ hop)
  · obtain ⟨ho, hn⟩ := opField_nField_of_selects hs
    exact mt (decode_eq_none_congr_nibble ho hn hop).1 hpat
  · obtain ⟨ho, hkk⟩ := opField_kkField_of_selects hs
    exact mt (decode_eq_none_congr_byte ho hkk hop).1 hpat

/-- The instruction's own row selects the instruction's word, whatever the instruction (R85). -/
theorem encodedInRow (i : Instr) : Laws.EncodedInRow.Statement i := by
  cases i with
  | halt => exact Laws.EncodedInRow.halt
  | cls => exact Laws.EncodedInRow.cls
  | ret => exact Laws.EncodedInRow.ret
  | sys nnn => exact Laws.EncodedInRow.sys nnn
  | jp nnn => exact Laws.EncodedInRow.jp nnn
  | call nnn => exact Laws.EncodedInRow.call nnn
  | seImm x kk => exact Laws.EncodedInRow.seImm x kk
  | sneImm x kk => exact Laws.EncodedInRow.sneImm x kk
  | seReg x y => exact Laws.EncodedInRow.seReg x y
  | ldImm x kk => exact Laws.EncodedInRow.ldImm x kk
  | addImm x kk => exact Laws.EncodedInRow.addImm x kk
  | ldReg x y => exact Laws.EncodedInRow.ldReg x y
  | orReg x y => exact Laws.EncodedInRow.orReg x y
  | andReg x y => exact Laws.EncodedInRow.andReg x y
  | xorReg x y => exact Laws.EncodedInRow.xorReg x y
  | addReg x y => exact Laws.EncodedInRow.addReg x y
  | subReg x y => exact Laws.EncodedInRow.subReg x y
  | shr x y => exact Laws.EncodedInRow.shr x y
  | subn x y => exact Laws.EncodedInRow.subn x y
  | shl x y => exact Laws.EncodedInRow.shl x y
  | sneReg x y => exact Laws.EncodedInRow.sneReg x y
  | ldI nnn => exact Laws.EncodedInRow.ldI nnn
  | jpV0 nnn => exact Laws.EncodedInRow.jpV0 nnn
  | rnd x kk => exact Laws.EncodedInRow.rnd x kk
  | drw x y n => exact Laws.EncodedInRow.drw x y n
  | skp x => exact Laws.EncodedInRow.skp x
  | sknp x => exact Laws.EncodedInRow.sknp x
  | ldVxDt x => exact Laws.EncodedInRow.ldVxDt x
  | ldVxK x => exact Laws.EncodedInRow.ldVxK x
  | ldDtVx x => exact Laws.EncodedInRow.ldDtVx x
  | ldStVx x => exact Laws.EncodedInRow.ldStVx x
  | addI x => exact Laws.EncodedInRow.addI x
  | ldF x => exact Laws.EncodedInRow.ldF x
  | ldB x => exact Laws.EncodedInRow.ldB x
  | ldMemVx x => exact Laws.EncodedInRow.ldMemVx x
  | ldVxMem x => exact Laws.EncodedInRow.ldVxMem x

/-- A word decodes to nothing exactly when no row selects it (R84, R86). -/
theorem decode_eq_none_iff_no_row (w : Word) :
    decode w = none ↔ ∀ r ∈ opcodeRows, r.selects w = false := by
  constructor
  · intro hd r hr
    exact Bool.eq_false_iff.2 fun hs => decode_ne_none_of_selects hr hs hd
  · intro hrows
    refine Option.eq_none_iff_forall_ne_some.2 fun i hd => ?_
    obtain ⟨r, hget, hs⟩ := encodedInRow i
    rw [encode_of_decode hd] at hs
    exact absurd hs (Bool.eq_false_iff.1 (hrows r (List.mem_of_getElem? hget)))

end Sys2Proof
end

section
/-! PROOFS. The dispatch of a tick and the tick of SYS (40_tick.md R114, R119). -/

namespace Sys2Proof.Machine

/-- A fetched word that decodes to HALT ends the tick with `Halt` (R118). -/
theorem tick_halt {s : State} (hf : s.fetchWord = .ok 0x0000#16) :
    tick s = .next (.halt, finishTick .halt s.advancePc) :=
  (tick_of_decode hf rfl).trans (tickInstr_next (exec_halt _))

/-- A tick that ends with `Halt` fetched 0x0000 (R114). -/
theorem fetched_zero_of_tick_halt {s t : State} {w : Word} (hf : s.fetchWord = .ok w)
    (h : tick s = .next (.halt, t)) : w = 0x0000#16 := by
  obtain ⟨w', i, u, hf', hd, -, hr, -⟩ := tick_inv h
  have hw : w = w' := Except.ok.inj (hf.symm.trans hf')
  have hi : i = .halt := (reportOf_halt_iff i).1 hr.symm
  rw [hw, ← decode_eq_some_halt_iff, hd, hi]

theorem step_of_illegal {s : State} {w : Word} (hf : s.fetchWord = .ok w) (hd : decode w = none) :
    step s = .fault (.decodeError w) := by
  simp [step, tick_of_illegal hf hd, dropReport]

/-- The tick of SYS advances `pc` and ends as every `Ok` tick does (R119). -/
theorem tick_sys {s : State} {w : Word} {nnn : Addr12} (hf : s.fetchWord = .ok w)
    (hd : decode w = some (.sys nnn)) : tick s = .next (.ok, finishTick .ok s.advancePc) :=
  (tick_of_decode hf hd).trans (tickInstr_next (exec_sys nnn s.advancePc))

/-- After a fetch the advanced `pc` is the number `pc` plus 2 (R112). -/
theorem advancePc_pc_toNat {s : State} {w : Word} (hf : s.fetchWord = .ok w) :
    s.advancePc.pc.toNat = s.pc.toNat + 2 := by
  obtain ⟨hpc, -⟩ := fetchWord_inv hf
  exact advance_toNat (by omega)

/-- Settles O8: HALT is the one instruction with the word 0x0000, and the decoder answers nothing
exactly where no row selects. -/
theorem dispatchFollowsTheTable : Obligations.DispatchFollowsTheTable := by
  intro s w hf
  refine ⟨?halt, ?only, ?illegal, ?legal⟩
  case halt =>
    rintro rfl
    exact ⟨_, tick_halt hf⟩
  case only => exact fun _ => fetched_zero_of_tick_halt hf
  case illegal =>
    intro hrows
    have hd := (decode_eq_none_iff_no_row w).2 hrows
    exact ⟨tick_of_illegal hf hd, step_of_illegal hf hd⟩
  case legal =>
    intro r hr hs
    obtain ⟨i, hd⟩ := Option.ne_none_iff_exists'.1 (decode_ne_none_of_selects hr hs)
    exact ⟨i, hd, tick_of_decode hf hd⟩

/-- Settles O25: SYS leaves the state to the tick around it, whose end changes the timers alone. -/
theorem sysDoesNothing : Obligations.SysDoesNothing := by
  intro nnn h0 hcls hret
  have hd : decode (wordNnn 0x0 nnn) = some (.sys nnn) := by
    rw [wordNnn_eq_pack]
    exact decode_sys h0 hcls hret
  refine ⟨hd, exec_sys nnn, fun s hf => ⟨finishTick .ok s.advancePc, tick_sys hf hd, ?_⟩⟩
  refine ⟨(step_next_iff s _).2 ⟨_, tick_sys hf hd⟩, ?_, ?_, ?_, ?_⟩
  · rw [finishTick_pc, advancePc_pc_toNat hf]
  · exact countDown_toNat s.dt
  · exact countDown_toNat s.st
  · exact ⟨fun r => by rw [reg_finishTick, reg_advancePc], rfl, ⟨rfl, rfl⟩, fun _ => rfl, fun _ _ => rfl⟩

end Sys2Proof.Machine
end

section
/-! PROOFS. Jumps and skips change `pc` alone (41_control_flow.md R131, R133 to R136). -/

namespace Sys2Proof.Machine

/-! The words of the jump and the skips decode to them (R85 rows 5, 7 to 9, 21). -/

/-- A byte operand is its own 8-bit number, so the word of an `XKK` pattern packs it as it stands. -/
theorem wordXkk_toNat_eq_pack (op : Nat) (x : Reg) (kk : Byte) :
    wordXkk op x kk.toNat = packXkk (BitVec.ofNat 4 op) x kk := by
  rw [wordXkk_eq_pack op kk.isLt, BitVec.ofNat_toNat, BitVec.setWidth_eq]

theorem decode_wordNnn_jp (nnn : Addr12) : decode (wordNnn 0x1 nnn) = some (.jp nnn) := by
  simp [wordNnn_eq_pack, decode]

theorem decode_wordXkk_seImm (x : Reg) (kk : Byte) :
    decode (wordXkk 0x3 x kk.toNat) = some (.seImm x kk) := by
  simp [wordXkk_toNat_eq_pack, decode]

theorem decode_wordXkk_sneImm (x : Reg) (kk : Byte) :
    decode (wordXkk 0x4 x kk.toNat) = some (.sneImm x kk) := by
  simp [wordXkk_toNat_eq_pack, decode]

theorem decode_wordXyn_seReg (x y : Reg) : decode (wordXyn 0x5 x y 0x0) = some (.seReg x y) := by
  simp [wordXyn_eq_pack, decode]

theorem decode_wordXyn_sneReg (x y : Reg) : decode (wordXyn 0x9 x y 0x0) = some (.sneReg x y) := by
  simp [wordXyn_eq_pack, decode]

/-! The frame of a jump and of a skip. -/

theorem onlyPc_jumpTo (s : State) (target : Word) : OnlyPc s (s.jumpTo target) :=
  ⟨fun _ => rfl, rfl, ⟨rfl, rfl⟩, ⟨rfl, rfl⟩, fun _ => rfl, fun _ _ => rfl, ⟨rfl, rfl⟩⟩

/-- A skip is a jump 2 further, and no skip a jump to where `pc` stands. -/
theorem skipIf_eq_jumpTo (s : State) (c : Bool) :
    s.skipIf c = s.jumpTo (if c then s.pc + 2#16 else s.pc) := by
  cases c <;> rfl

theorem onlyPc_skipIf (s : State) (c : Bool) : OnlyPc s (s.skipIf c) :=
  skipIf_eq_jumpTo s c ▸ onlyPc_jumpTo s _

/-! Where a skip on two bytes leaves `pc`: bytes are equal when their numbers are. -/

theorem skipIf_beq_pc (s : State) (a b : Byte) :
    (s.skipIf (a == b)).pc = if a.toNat = b.toNat then s.pc + 2#16 else s.pc := by
  simp only [skipIf_pc, beq_iff_eq, BitVec.toNat_inj]

theorem skipIf_bne_pc (s : State) (a b : Byte) :
    (s.skipIf (a != b)).pc = if a.toNat = b.toNat then s.pc else s.pc + 2#16 := by
  simp only [skipIf_pc, bne_iff_ne, BitVec.toNat_inj, ite_not]

/-- Settles O30: JP is a jump to `nnn` extended with zeros. -/
theorem jumpSetsPc : Obligations.JumpSetsPc := by
  intro nnn s
  exact ⟨decode_wordNnn_jp nnn, _, exec_jp nnn s, zextAddr_toNat nnn, onlyPc_jumpTo s _⟩

/-- Settles O32: both instructions are a skip, on the register's and the immediate's being equal or not. -/
theorem skipOnImmediate : Obligations.SkipOnImmediate := by
  intro x kk s
  refine ⟨decode_wordXkk_seImm x kk, decode_wordXkk_sneImm x kk, ?eq, ?ne⟩
  case eq => exact ⟨_, exec_seImm x kk s, onlyPc_skipIf s _, skipIf_beq_pc s _ _⟩
  case ne => exact ⟨_, exec_sneImm x kk s, onlyPc_skipIf s _, skipIf_bne_pc s _ _⟩

/-- Settles O33: both instructions are a skip, on the two registers' being equal or not. -/
theorem skipOnRegister : Obligations.SkipOnRegister := by
  intro x y s
  refine ⟨decode_wordXyn_seReg x y, decode_wordXyn_sneReg x y, ?eq, ?ne⟩
  case eq => exact ⟨_, exec_seReg x y s, onlyPc_skipIf s _, skipIf_beq_pc s _ _⟩
  case ne => exact ⟨_, exec_sneReg x y s, onlyPc_skipIf s _, skipIf_bne_pc s _ _⟩

end Sys2Proof.Machine
end

section
/-! PROOFS. Loads, addition, logic and subtraction change the destination and, for addition and
subtraction of registers, `VF` (42_alu.md R150 to R158, R160). -/

namespace Sys2Proof.Machine

/-! The words of these instructions decode to them (R85 rows 10 to 17, 19). -/

theorem decode_wordXkk_ldImm (x : Reg) (kk : Byte) :
    decode (wordXkk 0x6 x kk.toNat) = some (.ldImm x kk) := by
  simp [wordXkk_toNat_eq_pack, decode]

theorem decode_wordXkk_addImm (x : Reg) (kk : Byte) :
    decode (wordXkk 0x7 x kk.toNat) = some (.addImm x kk) := by
  simp [wordXkk_toNat_eq_pack, decode]

theorem decode_wordXyn_ldReg (x y : Reg) : decode (wordXyn 0x8 x y 0x0) = some (.ldReg x y) := by
  simp [wordXyn_eq_pack, decode, decodeAlu]

theorem decode_wordXyn_orReg (x y : Reg) : decode (wordXyn 0x8 x y 0x1) = some (.orReg x y) := by
  simp [wordXyn_eq_pack, decode, decodeAlu]

theorem decode_wordXyn_andReg (x y : Reg) : decode (wordXyn 0x8 x y 0x2) = some (.andReg x y) := by
  simp [wordXyn_eq_pack, decode, decodeAlu]

theorem decode_wordXyn_xorReg (x y : Reg) : decode (wordXyn 0x8 x y 0x3) = some (.xorReg x y) := by
  simp [wordXyn_eq_pack, decode, decodeAlu]

theorem decode_wordXyn_addReg (x y : Reg) : decode (wordXyn 0x8 x y 0x4) = some (.addReg x y) := by
  simp [wordXyn_eq_pack, decode, decodeAlu]

theorem decode_wordXyn_subReg (x y : Reg) : decode (wordXyn 0x8 x y 0x5) = some (.subReg x y) := by
  simp [wordXyn_eq_pack, decode, decodeAlu]

theorem decode_wordXyn_subn (x y : Reg) : decode (wordXyn 0x8 x y 0x7) = some (.subn x y) := by
  simp [wordXyn_eq_pack, decode, decodeAlu]

/-! The frame of a register write, and of a flag write followed by a register write. -/

theorem onlyRegs_setReg (s : State) (x : Reg) (b : Byte) : OnlyRegs s (s.setReg x b) :=
  ⟨rfl, rfl, ⟨rfl, rfl⟩, ⟨rfl, rfl⟩, fun _ => rfl, fun _ _ => rfl, ⟨rfl, rfl⟩⟩

theorem regsSameBut_setReg (s : State) (x : Reg) (b : Byte) : RegsSameBut x s (s.setReg x b) :=
  fun _ hr => reg_setReg_other s b hr

theorem onlyRegs_setFlagThenReg (s : State) (f : Bool) (x : Reg) (b : Byte) :
    OnlyRegs s (s.setFlagThenReg f x b) :=
  ⟨rfl, rfl, ⟨rfl, rfl⟩, ⟨rfl, rfl⟩, fun _ => rfl, fun _ _ => rfl, ⟨rfl, rfl⟩⟩

theorem regsSameButFlag_setFlagThenReg (s : State) (f : Bool) (x : Reg) (b : Byte) :
    RegsSameButFlag x s (s.setFlagThenReg f x b) := by
  intro r hx hflag
  rw [reg_setFlagThenReg, if_neg hx, if_neg hflag]

/-! The two registers that a flag-writing instruction writes. -/

@[simp] theorem reg_setFlagThenReg_self (s : State) (f : Bool) (x : Reg) (b : Byte) :
    (s.setFlagThenReg f x b).reg x = b := by
  rw [reg_setFlagThenReg, if_pos rfl]

/-- The flag stays where the destination is another register (R150). -/
theorem reg_setFlagThenReg_flag (s : State) (f : Bool) {x : Reg} (b : Byte) (h : x ≠ flagReg) :
    (s.setFlagThenReg f x b).reg flagReg = flagByte f := by
  rw [reg_setFlagThenReg, if_neg h.symm, if_pos rfl]

/-! The flags as bytes, from the operands as numbers (R157, R158, R160). -/

theorem flagByte_carryFlag (a b : Byte) :
    flagByte (carryFlag a b) = if 255 < a.toNat + b.toNat then 1#8 else 0#8 := by
  simp only [flagByte, carryFlag, decide_eq_true_eq]

theorem flagByte_greaterFlag (a b : Byte) :
    flagByte (greaterFlag a b) = if b.toNat < a.toNat then 1#8 else 0#8 := by
  simp only [flagByte, greaterFlag, decide_eq_true_eq]

/-- What SUB and SUBN share: each writes the flag and the difference of two operands, in its own order
of them (R158, R160). -/
theorem difference_and_flag_of_eq {s t : State} {x : Reg} (hx : x ≠ flagReg) {a b : Byte}
    (ht : t = s.setFlagThenReg (greaterFlag a b) x (a - b)) :
    ((t.reg x).toNat : Int) = (a.toNat - b.toNat) % 256 ∧
      t.reg flagReg = (if b.toNat < a.toNat then 1#8 else 0#8) ∧
      RegsSameButFlag x s t ∧ OnlyRegs s t := by
  subst ht
  refine ⟨?result, ?flag, regsSameButFlag_setFlagThenReg s _ x _, onlyRegs_setFlagThenReg s _ x _⟩
  case result => rw [reg_setFlagThenReg_self, byte_sub_toNat]
  case flag => rw [reg_setFlagThenReg_flag s _ _ hx, flagByte_greaterFlag]

/-- Settles O34: both loads are one register write, of the immediate or of the other register. -/
theorem loadsOverwriteRegister : Obligations.LoadsOverwriteRegister := by
  intro x y kk s
  refine ⟨decode_wordXkk_ldImm x kk, decode_wordXyn_ldReg x y, ?imm, ?reg⟩
  case imm =>
    exact ⟨_, exec_ldImm x kk s, reg_setReg_self s x _, regsSameBut_setReg s x _, onlyRegs_setReg s x _⟩
  case reg =>
    exact ⟨_, exec_ldReg x y s, reg_setReg_self s x _, regsSameBut_setReg s x _, onlyRegs_setReg s x _⟩

/-- Settles O35: one register write, of a sum of bytes; no flag is written. -/
theorem addImmediateWrapsWithoutFlag : Obligations.AddImmediateWrapsWithoutFlag := by
  intro x kk s
  refine ⟨decode_wordXkk_addImm x kk, _, exec_addImm x kk s, ?sum, regsSameBut_setReg s x _,
    onlyRegs_setReg s x _⟩
  case sum => rw [reg_setReg_self, BitVec.toNat_add]

/-- Settles O36: each is one register write, of a byte whose bits come from the operands' bits. -/
theorem logicKeepsFlag : Obligations.LogicKeepsFlag := by
  intro x y s
  refine ⟨decode_wordXyn_orReg x y, decode_wordXyn_andReg x y, decode_wordXyn_xorReg x y,
    ?or, ?and, ?xor⟩
  case or =>
    refine ⟨_, exec_orReg x y s, regsSameBut_setReg s x _, onlyRegs_setReg s x _, fun k => ?_⟩
    rw [reg_setReg_self, BitVec.getLsbD_or]
  case and =>
    refine ⟨_, exec_andReg x y s, regsSameBut_setReg s x _, onlyRegs_setReg s x _, fun k => ?_⟩
    rw [reg_setReg_self, BitVec.getLsbD_and]
  case xor =>
    refine ⟨_, exec_xorReg x y s, regsSameBut_setReg s x _, onlyRegs_setReg s x _, fun k => ?_⟩
    rw [reg_setReg_self, BitVec.getLsbD_xor]

/-- Settles O37: the carry is written first, and the sum, to another register, leaves it. -/
theorem addSetsCarry : Obligations.AddSetsCarry := by
  intro x y s hx
  refine ⟨decode_wordXyn_addReg x y, _, exec_addReg x y s, ?sum, ?carry,
    regsSameButFlag_setFlagThenReg s _ x _, onlyRegs_setFlagThenReg s _ x _⟩
  case sum => rw [reg_setFlagThenReg_self, BitVec.toNat_add]
  case carry => rw [reg_setFlagThenReg_flag s _ _ hx, flagByte_carryFlag]

/-- Settles O38: SUBN is SUB with the operands exchanged. -/
theorem subtractSetsStrictFlag : Obligations.SubtractSetsStrictFlag := by
  intro x y s hx
  refine ⟨decode_wordXyn_subReg x y, decode_wordXyn_subn x y, ?sub, ?subn⟩
  case sub => exact ⟨_, exec_subReg x y s, difference_and_flag_of_eq hx rfl⟩
  case subn => exact ⟨_, exec_subn x y s, difference_and_flag_of_eq hx rfl⟩

end Sys2Proof.Machine
end

section
/-! PROOFS. The loads of the index register change `I` alone (43_index_memory.md R180, R182). -/

namespace Sys2Proof.Machine

/-! The words of the two loads decode to them (R85 rows 22, 33). -/

theorem decode_wordNnn_ldI (nnn : Addr12) : decode (wordNnn 0xA nnn) = some (.ldI nnn) := by
  simp [wordNnn_eq_pack, decode]

theorem decode_wordXkk_ldF (x : Reg) : decode (wordXkk 0xF x 0x29) = some (.ldF x) := by
  simp [wordXkk_eq_pack, decode, decodeMisc]

/-- The frame of a write to `I`. -/
theorem onlyIndex_writeIndex (s : State) (a : Word) : OnlyIndex s { s with i := a } :=
  ⟨fun _ => rfl, rfl, ⟨rfl, rfl⟩, ⟨rfl, rfl⟩, fun _ => rfl, fun _ _ => rfl, ⟨rfl, rfl⟩⟩

/-- The mask 0xF keeps the low nibble. -/
theorem byte_and_0x0F_toNat (b : Byte) : (b &&& 0x0F#8).toNat = b.toNat % 16 := by
  rw [BitVec.toNat_and]
  exact Nat.and_two_pow_sub_one_eq_mod b.toNat 4

/-- A sprite's address is at most 75, so 16 bits hold it unreduced (R182). -/
theorem spriteAddr_toNat (b : Byte) :
    (zextByte (b &&& 0x0F#8) * 5#16).toNat = b.toNat % 16 * 5 := by
  rw [BitVec.toNat_mul, zextByte_toNat, byte_and_0x0F_toNat, BitVec.toNat_ofNat]
  omega

/-- Settles O42: both loads are one write to `I`, of `nnn` extended with zeros or of a sprite's address. -/
theorem indexLoads : Obligations.IndexLoads := by
  intro nnn x s
  refine ⟨decode_wordNnn_ldI nnn, decode_wordXkk_ldF x, ?ldI, ?ldF⟩
  case ldI => exact ⟨_, exec_ldI nnn s, zextAddr_toNat nnn, onlyIndex_writeIndex s _⟩
  case ldF => exact ⟨_, exec_ldF x s, spriteAddr_toNat (s.reg x), onlyIndex_writeIndex s _⟩

end Sys2Proof.Machine
end

section
/-! PROOFS. CLS, and what a draw, an immediate second draw and a draw across an edge leave on the screen
(44_display.md R201, R203, R205, R206). -/

namespace Sys2Proof.Machine

/-- The frame of a write to the framebuffer. -/
theorem onlyScreenAndRegs_writeScreen (s : State) (f : Framebuffer) :
    OnlyScreenAndRegs s { s with fb := f } :=
  ⟨rfl, rfl, ⟨rfl, rfl⟩, ⟨rfl, rfl⟩, fun _ => rfl, ⟨rfl, rfl⟩⟩

/-- Settles O47: CLS is one write to the framebuffer, of the screen with every pixel off. -/
theorem clearTurnsAllPixelsOff : Obligations.ClearTurnsAllPixelsOff := by
  refine ⟨rfl, fun s => ?_⟩
  exact ⟨_, exec_cls s, pixel_blankScreen, fun _ => rfl, onlyScreenAndRegs_writeScreen s _⟩

/-! A whole draw, in the terms of `Covers` (R203). -/

section
variable {x0 y0 : Nat} {sprite : List Byte} {fb : Framebuffer} {py : Fin 32} {px : Fin 64}

/-- A draw adds to each pixel, modulo 2, the bit `b` that says whether the sprite covers it. -/
theorem pixel_draw (hlen : sprite.length ≤ 15) {b : Bool}
    (hb : Covers x0 y0 sprite py px ↔ b = true) :
    pixel (draw x0 y0 sprite fb).1 py px = (pixel fb py px ^^ b) := by
  classical
  obtain ⟨hpix, -⟩ := drawRows_spec x0 y0 0 sprite (by omega) (fb, false)
  have hrows : RowsCover x0 y0 0 sprite py px ↔ b = true :=
    (rowsCover_iff_covers x0 y0 sprite py px).trans hb
  simp [draw, hpix, hrows]

theorem pixel_draw_of_covers (hlen : sprite.length ≤ 15) (h : Covers x0 y0 sprite py px) :
    pixel (draw x0 y0 sprite fb).1 py px = !pixel fb py px := by
  rw [pixel_draw hlen (b := true) (by simp [h]), Bool.xor_true]

theorem pixel_draw_of_not_covers (hlen : sprite.length ≤ 15) (h : ¬ Covers x0 y0 sprite py px) :
    pixel (draw x0 y0 sprite fb).1 py px = pixel fb py px := by
  rw [pixel_draw hlen (b := false) (by simp [h]), Bool.xor_false]

theorem draw_collision_iff (hlen : sprite.length ≤ 15) :
    (draw x0 y0 sprite fb).2 = true ↔ ∃ py px, Covers x0 y0 sprite py px ∧ pixel fb py px = true := by
  obtain ⟨-, hcol⟩ := drawRows_spec x0 y0 0 sprite (by omega) (fb, false)
  simpa [draw, rowsCover_iff_covers] using hcol

/-- A draw undoes the same draw (R206). -/
theorem draw_draw (hlen : sprite.length ≤ 15) :
    (draw x0 y0 sprite (draw x0 y0 sprite fb).1).1 = fb := by
  refine framebuffer_ext fun py px => ?_
  by_cases h : Covers x0 y0 sprite py px
  · rw [pixel_draw_of_covers hlen h, pixel_draw_of_covers hlen h, Bool.not_not]
  · rw [pixel_draw_of_not_covers hlen h, pixel_draw_of_not_covers hlen h]

/-- The second of two equal draws collides on what was off before the first (R206). -/
theorem draw_draw_collision_iff (hlen : sprite.length ≤ 15) :
    (draw x0 y0 sprite (draw x0 y0 sprite fb).1).2 = true ↔
      ∃ py px, Covers x0 y0 sprite py px ∧ pixel fb py px = false := by
  rw [draw_collision_iff hlen]
  refine exists₂_congr fun py px => and_congr_right fun h => ?_
  rw [pixel_draw_of_covers hlen h, Bool.not_eq_true']

end

/-- Settles O48: a draw is its rows, each its bits, and no two of them fall on one pixel. -/
theorem drawTogglesCoveredPixels : Obligations.DrawTogglesCoveredPixels := by
  intro x0 y0 sprite fb hlen
  exact ⟨fun _ _ => pixel_draw_of_covers hlen, fun _ _ => pixel_draw_of_not_covers hlen,
    draw_collision_iff hlen⟩

/-! The draw instruction twice (R206). -/

/-- The sprite of DRW has one row for each byte, at most 15. -/
theorem spriteAt_length_le (s : State) (n : Fin 16) : (s.spriteAt n.val).length ≤ 15 := by
  rw [State.spriteAt, List.length_map, List.length_range]
  omega

/-- Settles O50: a draw changes neither the bytes at `I` nor, with `x` and `y` not 15, the coordinates, so
the second draw is the same one and undoes the first. -/
theorem drawTwiceRestores : Obligations.DrawTwiceRestores := by
  intro x y n s t hx hy h
  obtain ⟨hin, rfl⟩ := exec_drw_inv h
  have hlen := spriteAt_length_le s n
  refine ⟨_, exec_drw_ok x y n _ hin, ?screen, ?flag⟩
  all_goals rw [reg_setReg_other _ _ hx, reg_setReg_other _ _ hy]
  case screen => exact draw_draw hlen
  case flag =>
    rw [reg_setReg_self, flagByte_eq_one]
    exact draw_draw_collision_iff hlen

/-! Sprites at the edges of the screen (R205). -/

/-- Eight on bits from column 60 lie over columns 60 to 63 and 0 to 3. -/
theorem covers_fullRow_at_60_iff (y0 : Nat) (py : Fin 32) (px : Fin 64) :
    Covers 60 y0 [0xFF#8] py px ↔ py.val = y0 % 32 ∧ (60 ≤ px.val ∨ px.val ≤ 3) := by
  constructor
  · rintro ⟨r, c, hr, hc, hcol, hrow, -⟩
    simp only [List.length_singleton] at hr
    omega
  · rintro ⟨hrow, hcol⟩
    have hon : ∀ k < 8, (0xFF#8).getLsbD k = true := by decide
    exact ⟨0, (px.val + 4) % 64, by simp, by omega, by omega, by omega, hon _ (by omega)⟩

/-- A sprite of two rows from row 31, each with its leftmost bit on, lies over rows 31 and 0. -/
theorem covers_twoRows_at_31_iff (x0 : Nat) (py : Fin 32) (px : Fin 64) :
    Covers x0 31 [0x80#8, 0x80#8] py px ↔ px.val = x0 % 64 ∧ (py.val = 31 ∨ py.val = 0) := by
  have hon : ∀ r < 2, ∀ c < 8, ([0x80#8, 0x80#8].getD r 0).getLsbD (7 - c) = true ↔ c = 0 := by decide
  constructor
  · rintro ⟨r, c, hr, hc, hcol, hrow, hbit⟩
    have hleft : c = 0 := (hon r hr c hc).1 hbit
    change r < 2 at hr
    omega
  · rintro ⟨hcol, hrow⟩
    have hr : (py.val + 1) % 32 < 2 := by omega
    exact ⟨(py.val + 1) % 32, 0, hr, by omega, by omega, by omega, (hon _ hr 0 (by omega)).2 rfl⟩

/-- Settles O51: each claim is what a draw does to a pixel, with the pixels that the sprite covers. -/
theorem spritesWrapAtEdges : Obligations.SpritesWrapAtEdges := by
  refine ⟨?everyBit, ?right, ?bottom⟩
  case everyBit =>
    intro x0 y0 sprite fb r c hlen hr hc hon
    exact pixel_draw_of_covers hlen ⟨r, c, hr, hc, rfl, rfl, hon⟩
  case right =>
    intro y0 fb py px
    exact pixel_draw (by simp) (by simp [covers_fullRow_at_60_iff])
  case bottom =>
    intro x0 fb py px
    exact pixel_draw (by simp) (by simp [covers_twoRows_at_31_iff])

end Sys2Proof.Machine
end

section
/-! PROOFS. Wait for key and the timer transfers, alone and in their ticks (45_keys_timers.md R223, R225 to
R227). -/

namespace Sys2Proof.Machine

/-! The words of these instructions decode to them (R85 rows 28 to 31). -/

theorem decode_wordXkk_ldVxDt (x : Reg) : decode (wordXkk 0xF x 0x07) = some (.ldVxDt x) := by
  simp [wordXkk_eq_pack, decode, decodeMisc]

theorem decode_wordXkk_ldVxK (x : Reg) : decode (wordXkk 0xF x 0x0A) = some (.ldVxK x) := by
  simp [wordXkk_eq_pack, decode, decodeMisc]

theorem decode_wordXkk_ldDtVx (x : Reg) : decode (wordXkk 0xF x 0x15) = some (.ldDtVx x) := by
  simp [wordXkk_eq_pack, decode, decodeMisc]

theorem decode_wordXkk_ldStVx (x : Reg) : decode (wordXkk 0xF x 0x18) = some (.ldStVx x) := by
  simp [wordXkk_eq_pack, decode, decodeMisc]

/-! The ticks. -/

/-- The tick of an instruction other than HALT that completes (R110, R117). -/
theorem tick_of_exec {s u : State} {w : Word} {i : Instr} (hf : s.fetchWord = .ok w)
    (hd : decode w = some i) (hi : i ≠ .halt) (hx : exec i s.advancePc = .next u) :
    tick s = .next (.ok, finishTick .ok u) := by
  rw [tick_of_decode hf hd, tickInstr_next hx, reportOf_ok hi]

theorem step_of_exec {s u : State} {w : Word} {i : Instr} (hf : s.fetchWord = .ok w)
    (hd : decode w = some i) (hi : i ≠ .halt) (hx : exec i s.advancePc = .next u) :
    step s = .next (finishTick .ok u) :=
  (step_next_iff s _).2 ⟨_, tick_of_exec hf hd hi hx⟩

/-- Putting `pc` back undoes the advance of the tick (R112, R223). -/
@[simp] theorem rewindPc_advancePc (s : State) : s.advancePc.rewindPc = s := by
  simp [State.rewindPc, State.advancePc]

/-- Where no key is down, LD Vx, K leaves only the end of the tick to change the state (R223). -/
theorem tick_ldVxK_none {s : State} {x : Reg} (hf : s.fetchWord = .ok (wordXkk 0xF x 0x0A))
    (hkeys : s.input.keys = 0#16) : tick s = .next (.ok, finishTick .ok s) := by
  have hx : exec (.ldVxK x) s.advancePc = .next s := by
    rw [exec_ldVxK_none x s.advancePc hkeys, rewindPc_advancePc]
  exact tick_of_exec hf (decode_wordXkk_ldVxK x) nofun hx

/-! The frames, and the value of a key. -/

theorem onlyPc_rewindPc (s : State) : OnlyPc s s.rewindPc := onlyPc_jumpTo s _

theorem onlyTimers_writeTimers (s : State) (d e : Byte) : OnlyTimers s { s with dt := d, st := e } :=
  ⟨fun _ => rfl, rfl, rfl, ⟨rfl, rfl⟩, fun _ => rfl, fun _ _ => rfl, ⟨rfl, rfl⟩⟩

/-- A key's number is below 16, so a byte holds it unreduced (R223). -/
@[simp] theorem keyValue_toNat (k : Fin 16) : (keyValue k).toNat = k.val := by
  rw [keyValue, BitVec.toNat_ofNat]
  omega

/-- Settles O53: with no key down the rewind undoes the tick's advance of `pc`; with a key down there is one
register write, of the number of a pressed key. -/
theorem waitForKey : Obligations.WaitForKey := by
  intro x s
  refine ⟨decode_wordXkk_ldVxK x, ?noKey, ?key, ?tick⟩
  case noKey =>
    intro hkeys
    exact ⟨_, exec_ldVxK_none x s hkeys, rewindPc_pc s, onlyPc_rewindPc s⟩
  case key =>
    intro hkeys
    obtain ⟨k, hdown, hx⟩ := exec_ldVxK_some x s hkeys
    refine ⟨_, hx, ⟨k.val, by omega, hdown, ?_⟩, regsSameBut_setReg s x _, onlyRegs_setReg s x _⟩
    rw [reg_setReg_self, keyValue_toNat]
  case tick =>
    intro hf hkeys
    have htick := tick_ldVxK_none hf hkeys
    exact ⟨_, htick, (step_next_iff s _).2 ⟨_, htick⟩, rfl, fun _ => rfl, rfl, ⟨rfl, rfl⟩, fun _ => rfl,
      fun _ _ => rfl, countDown_toNat s.dt, countDown_toNat s.st⟩

/-- Settles O54: each transfer is one write, and the tick's end counts down what it left in the timers. -/
theorem timerTransfers : Obligations.TimerTransfers := by
  intro x s
  refine ⟨decode_wordXkk_ldVxDt x, decode_wordXkk_ldDtVx x, decode_wordXkk_ldStVx x, ?readDt, ?loadDt,
    ?loadSt, ?tickReadDt, ?tickLoadDt, ?tickLoadSt⟩
  case readDt =>
    exact ⟨_, exec_ldVxDt x s, reg_setReg_self s x _, regsSameBut_setReg s x _, onlyRegs_setReg s x _⟩
  case loadDt => exact ⟨_, exec_ldDtVx x s, rfl, rfl, onlyTimers_writeTimers s _ _⟩
  case loadSt => exact ⟨_, exec_ldStVx x s, rfl, rfl, onlyTimers_writeTimers s _ _⟩
  case tickReadDt =>
    intro hf
    have hstep := step_of_exec hf (decode_wordXkk_ldVxDt x) nofun (exec_ldVxDt x _)
    refine ⟨_, hstep, ?_, countDown_toNat s.dt⟩
    rw [reg_finishTick, reg_setReg_self, advancePc_dt]
  case tickLoadDt =>
    intro hf
    have hstep := step_of_exec hf (decode_wordXkk_ldDtVx x) nofun (exec_ldDtVx x _)
    exact ⟨_, hstep, countDown_toNat (s.reg x)⟩
  case tickLoadSt =>
    intro hf
    have hstep := step_of_exec hf (decode_wordXkk_ldStVx x) nofun (exec_ldStVx x _)
    exact ⟨_, hstep, countDown_toNat (s.reg x)⟩

end Sys2Proof.Machine
end

section
/-! PROOFS. CALLs one after the other and the overflow of the stack (60_exceptions.md R243). -/

namespace Sys2Proof.Machine

/-- A CALL that the stack has room for counts one entry (R132). -/
theorem exec_call_counts (nnn : Addr12) (s : State) (h : s.sp.val < 16) :
    ∃ u, exec (.call nnn) s = .next u ∧ u.sp.val = s.sp.val + 1 :=
  ⟨_, exec_call_ok nnn s h, rfl⟩

/-- The first CALL of a sequence, where the stack has room, leaves its state to the rest. -/
theorem execCalls_cons_of_next {a : Addr12} {rest : List Addr12} {s u : State}
    (h : exec (.call a) s = .next u) : execCalls (a :: rest) s = execCalls rest u := by
  rw [execCalls, h]

/-- CALLs that the stack has room for complete, and each counts one entry. -/
theorem execCalls_ok (targets : List Addr12) (s : State) (hroom : s.sp.val + targets.length ≤ 16) :
    ∃ t, execCalls targets s = .next t ∧ t.sp.val = s.sp.val + targets.length := by
  induction targets generalizing s with
  | nil => exact ⟨s, rfl, rfl⟩
  | cons a rest ih =>
    rw [List.length_cons] at hroom ⊢
    obtain ⟨u, hcall, hpush⟩ := exec_call_counts a s (by omega)
    obtain ⟨t, hrun, hsp⟩ := ih u (by omega)
    exact ⟨t, (execCalls_cons_of_next hcall).trans hrun, by omega⟩

/-- Settles O28: sixteen CALLs fill an empty stack, by induction over the CALLs, and a CALL on a full stack
overflows. -/
theorem seventeenthCallOverflows : Obligations.SeventeenthCallOverflows := by
  refine ⟨exec_call_full, fun targets s hempty hlen => ?_⟩
  obtain ⟨t, hrun, hsp⟩ := execCalls_ok targets s (by omega)
  have hfull : t.sp.val = 16 := by omega
  exact ⟨t, hrun, hfull, fun nnn => exec_call_full nnn t hfull⟩

end Sys2Proof.Machine
end

section
/-! PROOFS. The decoder inverts the encoder, takes the first row that selects a word, and refuses the listed
words alone (30_encoding.md R84 to R89). -/

namespace Sys2Proof

/-- The word of a well-formed instruction decodes to it, by the format that its row has (R82, R85). -/
theorem decode_encode {i : Instr} (h : i.wellFormed = true) : decode (encode i) = some i := by
  cases i with
  | halt | cls | ret => rfl
  | sys nnn =>
    simp only [Instr.wellFormed, sysOperandOk, Bool.and_eq_true, bne_iff_ne] at h
    obtain ⟨⟨h0, hcls⟩, hret⟩ := h
    exact decode_sys h0 hcls hret
  | jp | call | ldI | jpV0 | seImm | sneImm | ldImm | addImm | rnd | seReg | sneReg =>
    simp [encode, decode]
  | drw x y n =>
    have hn : (regBits n).toFin = n := rfl
    simp [encode, decode, hn]
  | ldReg | orReg | andReg | xorReg | addReg | subReg | shr | subn | shl =>
    simp [encode, decode, decodeAlu]
  | skp | sknp => simp [encode, decode, decodeKey]
  | ldVxDt | ldVxK | ldDtVx | ldStVx | addI | ldF | ldB | ldMemVx | ldVxMem =>
    simp [encode, decode, decodeMisc]

/-- What a word decodes to is well-formed: the three exact words of the `0` page decode to no SYS (R89). -/
theorem wellFormed_of_decode {w : Word} {i : Instr} (hd : decode w = some i) :
    i.wellFormed = true := by
  cases i with
  | sys nnn =>
    have hw : decode (packNnn 0x0#4 nnn) = some (.sys nnn) :=
      (congrArg decode (encode_of_decode hd)).trans hd
    simp only [Instr.wellFormed, sysOperandOk, Bool.and_eq_true, bne_iff_ne]
    refine ⟨⟨?_, ?_⟩, ?_⟩ <;> (rintro rfl; cases hw)
  | _ => rfl

/-! Which rows of the table can select one word (R84). -/

/-- Two rows agree on the bits that both masks cover. -/
def OpcodeRow.overlaps (r q : OpcodeRow) : Bool := r.pattern &&& q.mask == q.pattern &&& r.mask

theorem OpcodeRow.overlaps_of_selects {r q : OpcodeRow} {w : Word} (hr : r.selects w = true)
    (hq : q.selects w = true) : r.overlaps q = true := by
  simp only [selects, beq_iff_eq] at hr hq
  rw [overlaps, beq_iff_eq, ← hr, ← hq, BitVec.and_assoc, BitVec.and_assoc, BitVec.and_comm r.mask]

/-- Of two rows that overlap, the earlier one is an exact word, and the decoder takes it there. -/
theorem opcodeRows_overlap : ∀ k : Fin opcodeRows.length, ∀ j < k,
    opcodeRows[j].overlaps opcodeRows[k] = true →
      opcodeRows[j].mask = 0xFFFF#16 ∧
        (decode opcodeRows[j].pattern).map Instr.rowIndex = some j.val := by
  decide

theorem rowIndex_lt (i : Instr) : i.rowIndex < opcodeRows.length := by
  obtain ⟨r, hget, -⟩ := encodedInRow i
  exact (List.getElem?_eq_some_iff.1 hget).1

theorem rowIndex_selects {w : Word} {i : Instr} (hd : decode w = some i) :
    (opcodeRows[i.rowIndex]'(rowIndex_lt i)).selects w = true := by
  obtain ⟨r, hget, hs⟩ := encodedInRow i
  rwa [(List.getElem?_eq_some_iff.1 hget).2, ← encode_of_decode hd]

/-- No row before that of the decoded instruction selects the word (R84). -/
theorem not_selects_of_lt_rowIndex {w : Word} {i : Instr} (hd : decode w = some i) {j : Nat}
    (hj : j < i.rowIndex) : ¬ (opcodeRows[j]'(hj.trans (rowIndex_lt i))).selects w = true := by
  intro hs
  obtain ⟨hmask, hfirst⟩ := opcodeRows_overlap ⟨_, rowIndex_lt i⟩ ⟨j, hj.trans (rowIndex_lt i)⟩ hj
    (OpcodeRow.overlaps_of_selects hs (rowIndex_selects hd))
  have hw : w = (opcodeRows[j]'(hj.trans (rowIndex_lt i))).pattern := eq_of_selects (hmask ▸ hs)
  have hrow : some i.rowIndex = some j := by simpa [← hw, hd] using hfirst
  exact hj.ne' (Option.some.inj hrow)

/-! A field equals a constant when their numbers are equal. -/

theorem opField_eq_iff (w : Word) (n : BitVec 4) : opField w = n ↔ w.toNat / 0x1000 = n.toNat := by
  rw [← BitVec.toNat_inj, opField_toNat]

theorem nField_eq_iff (w : Word) (n : BitVec 4) : nField w = n ↔ w.toNat % 0x10 = n.toNat := by
  rw [← BitVec.toNat_inj, nField_toNat]

theorem kkField_eq_iff (w : Word) (kk : Byte) : kkField w = kk ↔ w.toNat % 0x100 = kk.toNat := by
  rw [← BitVec.toNat_inj, kkField_toNat]

/-- A low digit is one of the nine that `8xy_` defines, or one of the seven others. -/
theorem aluDigit_not_mem_iff {n : Nat} (h : n < 0x10) :
    n ∉ [0, 1, 2, 3, 4, 5, 6, 7, 0xE] ↔ n ∈ [8, 9, 0xA, 0xB, 0xC, 0xD, 0xF] := by
  interval_cases n <;> decide

end Sys2Proof

namespace Sys2Proof.Machine

/-- Settles O2: the two bytes of a word are the word again, and the word decodes to its instruction. -/
theorem decodeOfEncode : Obligations.DecodeOfEncode := by
  intro i h
  refine ⟨decode_encode h, fun rest => ?_⟩
  rw [encodeBytes, decodeBytes_wordBytes, decode_encode h]

/-- Settles O3: every format packs its fields back to the word, and the exact words decode to no SYS. -/
theorem encodeOfDecode : Obligations.EncodeOfDecode :=
  fun _ _ hd => ⟨encode_of_decode hd, wellFormed_of_decode hd⟩

/-- Settles O4: where the word decodes, its instruction's row selects it and no row before that does. -/
theorem decodeTakesFirstMatchingRow : Obligations.DecodeTakesFirstMatchingRow := by
  intro w
  cases hd : decode w with
  | none => exact (List.findIdx?_eq_none_iff.2 ((decode_eq_none_iff_no_row w).1 hd)).symm
  | some i =>
    exact (List.findIdx?_eq_some_iff_getElem.2 ⟨rowIndex_lt i, rowIndex_selects hd,
      fun j hj => not_selects_of_lt_rowIndex hd hj⟩).symm

/-- Settles O5: the illegal words by their fields, with each field read as a number. -/
theorem illegalWordsAreExactlyListed : Obligations.IllegalWordsAreExactlyListed := by
  intro w
  have halu := aluDigit_not_mem_iff (Nat.mod_lt w.toNat (y := 0x10) (by omega))
  rw [decode_eq_none_iff, decodeAlu_eq_none_iff, decodeKey_eq_none_iff, decodeMisc_eq_none_iff, ← halu]
  simp only [List.mem_cons, List.not_mem_nil, opField_eq_iff, nField_eq_iff, kkField_eq_iff, ne_eq,
    BitVec.toNat_ofNat, Nat.reducePow, Nat.reduceMod]

/-- Settles O1, by evaluating the decoder. -/
theorem specWordsDecode : Obligations.SpecWordsDecode := by
  unfold Obligations.SpecWordsDecode
  decide

end Sys2Proof.Machine
end

section
/-! PROOFS. What an executed instruction does to each part of the state, said once for all instructions:
what it may write, where `pc` and the timers end, what stays. -/

namespace Sys2Proof.Machine

/-! The bytes at `I`, and registers loaded from them (R185, R202). -/

@[simp] theorem spriteAt_length (s : State) (n : Nat) : (s.spriteAt n).length = n := by
  rw [State.spriteAt, List.length_map, List.length_range]

theorem spriteAt_getD (s : State) {k n : Nat} (h : k < n) :
    (s.spriteAt n).getD k 0 = s.mem.read (s.i.toNat + k) := by
  rw [List.getD_eq_getElem _ _ (by simpa using h)]
  simp [State.spriteAt]

/-- The registers that a sequence of bytes reaches from register 0 on get their byte, the others stay. -/
theorem reg_setRegsFrom (s : State) (bytes : List Byte) (r : Reg) :
    State.reg { s with v := setRegsFrom 0 bytes s.v } r =
      if r.val < bytes.length then bytes.getD r.val 0 else s.reg r := by
  simp [State.reg, setRegsFrom_get]

theorem reg_loaded (s : State) {x r : Reg} (h : r ≤ x) :
    State.reg { s with v := setRegsFrom 0 (s.spriteAt (x.val + 1)) s.v } r =
      s.mem.read (s.i.toNat + r.val) := by
  have hr : r.val < x.val + 1 := Nat.lt_succ_of_le h
  rw [reg_setRegsFrom, spriteAt_length, if_pos hr, spriteAt_getD s hr]

theorem reg_not_loaded (s : State) {x r : Reg} (h : x < r) :
    State.reg { s with v := setRegsFrom 0 (s.spriteAt (x.val + 1)) s.v } r = s.reg r := by
  have hr : ¬ r.val < x.val + 1 := Nat.not_lt.2 h
  rw [reg_setRegsFrom, spriteAt_length, if_neg hr]

/-- The effect of an instruction that completes, part by part (R21 to R29); where `pc` ends is told from the
address `a` of the instruction, which the tick has already advanced past (R24, R112). -/
structure ExecEffect (i : Instr) (s t : State) : Prop where
  regs : ∀ r, mayWriteReg i r = false → t.reg r = s.reg r
  index : writesIndex i = false → t.i = s.i
  pc : ∀ a ≤ 0x0FFE, s.pc.toNat = a + 2 → t.pc.toNat = pcAfter i a s
  stack : touchesStack i = false → StackSame s t
  dt : t.dt = loadedDt i s
  st : t.st = loadedSt i s
  mem : storesToMemory i = false → t.mem = s.mem
  screen : writesScreen i = false → t.fb = s.fb
  inputs : InputsSame s t

/-! The effect of each shared operation, for an instruction that is that operation. -/

section
variable {i : Instr} {s : State}

theorem effect_jumpTo {target : Word}
    (hpc : ∀ a ≤ 0x0FFE, s.pc.toNat = a + 2 → target.toNat = pcAfter i a s) :
    ExecEffect i s { s with pc := target, dt := loadedDt i s, st := loadedSt i s } where
  regs _ _ := rfl
  index _ := rfl
  pc := hpc
  stack _ := ⟨rfl, rfl⟩
  dt := rfl
  st := rfl
  mem _ := rfl
  screen _ := rfl
  inputs := ⟨rfl, rfl⟩

/-- An instruction that leaves `pc` to the tick. -/
theorem effect_stay (hpc : ∀ a, pcAfter i a s = a + 2) :
    ExecEffect i s { s with dt := loadedDt i s, st := loadedSt i s } :=
  effect_jumpTo fun a _ h => h.trans (hpc a).symm

theorem effect_skipIf {c : Bool} (hdt : loadedDt i s = s.dt) (hst : loadedSt i s = s.st)
    (hpc : ∀ a, pcAfter i a s = skipTarget a c) : ExecEffect i s (s.skipIf c) := by
  have htarget : ∀ a ≤ 0x0FFE, s.pc.toNat = a + 2 →
      (if c then s.pc + 2#16 else s.pc).toNat = pcAfter i a s := by
    intro a ha h
    rw [hpc, skipTarget]
    split
    · rw [advance_toNat (by omega), h]
    · exact h
  rw [skipIf_eq_jumpTo, State.jumpTo]
  simpa only [hdt, hst] using effect_jumpTo htarget

theorem ExecEffect.setReg (h : ExecEffect i s s) {x : Reg} (b : Byte) (hx : mayWriteReg i x = true) :
    ExecEffect i s (s.setReg x b) :=
  { h with regs := fun r hr => reg_setReg_other s b (by rintro rfl; simp [hx] at hr) }

theorem ExecEffect.setFlagThenReg (h : ExecEffect i s s) (f : Bool) {x : Reg} (b : Byte)
    (hx : ∀ r, mayWriteReg i r = (r == x || r == flagReg)) :
    ExecEffect i s (s.setFlagThenReg f x b) where
  __ := h
  regs r hr := by
    rw [hx, Bool.or_eq_false_iff, beq_eq_false_iff_ne, beq_eq_false_iff_ne] at hr
    exact regsSameButFlag_setFlagThenReg s f x b r hr.1 hr.2

end

/-! Where JP V0 and LD Vx, K leave `pc`. -/

/-- The sum is below 2^16, so it is not reduced (R137). -/
theorem jumpOffset_toNat (nnn : Addr12) (b : Byte) :
    (zextAddr nnn + zextByte b).toNat = nnn.toNat + b.toNat := by
  rw [BitVec.toNat_add, zextAddr_toNat, zextByte_toNat]
  omega

theorem keys_ne_zero {keys : BitVec 16} {k : Nat} (h : keys.getLsbD k = true) : keys ≠ 0#16 := by
  rintro rfl
  simp at h

/-- An instruction that completes has its effect. -/
theorem exec_effect {i : Instr} {s t : State} (h : exec i s = .next t) : ExecEffect i s t := by
  cases i with
  | halt | sys | ldDtVx | ldStVx =>
    cases h
    exact effect_stay fun _ => rfl
  | cls =>
    cases h
    exact { effect_stay (i := .cls) (s := s) fun _ => rfl with screen := nofun }
  | ret =>
    obtain ⟨h0, rfl⟩ := exec_ret_inv h
    exact { effect_jumpTo (s := s) fun _ _ _ => by simp [pcAfter, h0] with stack := nofun }
  | jp nnn =>
    cases h
    exact effect_jumpTo fun _ _ _ => zextAddr_toNat nnn
  | call nnn =>
    obtain ⟨-, rfl⟩ := exec_call_inv h
    exact { effect_jumpTo (s := s) fun _ _ _ => zextAddr_toNat nnn with stack := nofun }
  | jpV0 nnn =>
    cases h
    exact effect_jumpTo fun _ _ _ => jumpOffset_toNat nnn _
  | seImm | sneImm | seReg | sneReg =>
    cases h
    exact effect_skipIf rfl rfl fun _ => rfl
  | skp =>
    obtain ⟨-, rfl⟩ := exec_skp_inv h
    exact effect_skipIf rfl rfl fun _ => rfl
  | sknp =>
    obtain ⟨-, rfl⟩ := exec_sknp_inv h
    exact effect_skipIf rfl rfl fun _ => rfl
  | ldImm x | addImm x | ldReg x | orReg x | andReg x | xorReg x | rnd x | ldVxDt x =>
    cases h
    exact (effect_stay fun _ => rfl : ExecEffect _ s s).setReg _ (beq_self_eq_true x)
  | addReg | subReg | shr | subn | shl =>
    cases h
    exact (effect_stay fun _ => rfl : ExecEffect _ s s).setFlagThenReg _ _ fun _ => rfl
  | ldVxK x =>
    rcases exec_ldVxK_inv h with ⟨hkeys, rfl⟩ | ⟨k, hk, rfl⟩
    · refine effect_jumpTo fun a ha hpc => ?_
      rw [pcAfter, if_pos hkeys, BitVec.toNat_sub, hpc, BitVec.toNat_ofNat]
      omega
    · have hstay : ExecEffect (.ldVxK x) s s := effect_stay fun _ => if_neg (keys_ne_zero hk)
      exact hstay.setReg _ (beq_self_eq_true x)
  | ldI | addI | ldF =>
    cases h
    exact { effect_stay (s := s) fun _ => rfl with index := nofun }
  | drw =>
    obtain ⟨-, rfl⟩ := exec_drw_inv h
    exact { (effect_stay fun _ => rfl : ExecEffect _ s s).setReg _ rfl with screen := nofun }
  | ldB =>
    obtain ⟨m, rfl⟩ := exec_ldB_inv h
    exact { effect_stay (s := s) fun _ => rfl with mem := nofun }
  | ldMemVx =>
    obtain ⟨m, rfl⟩ := exec_ldMemVx_inv h
    exact { effect_stay (s := s) fun _ => rfl with mem := nofun }
  | ldVxMem =>
    obtain ⟨-, rfl⟩ := exec_ldVxMem_inv h
    exact { effect_stay (s := s) fun _ => rfl with
      regs := fun r hr => reg_not_loaded s (not_le.1 (of_decide_eq_false hr)) }

end Sys2Proof.Machine
end

section
/-! PROOFS. What every tick that goes on does and leaves alone, and the invariant (10_state.md, 20_memory.md
R59, R60, 40_tick.md R116, R24). -/

namespace Sys2Proof.Machine

/-- A tick that goes on: the effect of its instruction after the advance of `pc`, then the end of the tick. -/
theorem step_effect {s t : State} {w : Word} {i : Instr} (hf : s.fetchWord = .ok w)
    (hd : decode w = some i) (h : step s = .next t) :
    ∃ u, ExecEffect i s.advancePc u ∧ t = finishTick (reportOf i) u := by
  obtain ⟨u, hx, ht⟩ := step_inv_of hf hd h
  exact ⟨u, exec_effect hx, ht⟩

/-- Settles O10: what the instruction left in the timers is counted down by the end of the tick. -/
theorem timersCountOkTicks : Obligations.TimersCountOkTicks := by
  intro s t w i hf hd h
  obtain ⟨u, hu, rfl⟩ := step_effect hf hd h
  constructor
  · intro hi
    rw [reportOf_ok hi, finishTick_ok_dt, finishTick_ok_st, countDown_toNat, countDown_toNat, hu.dt, hu.st]
    exact ⟨rfl, rfl⟩
  · rintro rfl
    exact ⟨hu.dt, hu.st⟩

theorem step_pc_toNat {s t : State} {w : Word} {i : Instr} (hf : s.fetchWord = .ok w)
    (hd : decode w = some i) (h : step s = .next t) : t.pc.toNat = pcAfter i s.pc.toNat s := by
  obtain ⟨u, hu, rfl⟩ := step_effect hf hd h
  rw [finishTick_pc]
  exact hu.pc _ (fetchWord_inv hf).1 (advancePc_pc_toNat hf)

/-- Settles O11: the end of the tick leaves `pc` where the instruction left it. -/
theorem pcAfterEveryTick : Obligations.PcAfterEveryTick :=
  fun _ _ _ _ => step_pc_toNat

/-- Settles O16: neither the advance of `pc` nor the end of the tick touches memory. -/
theorem onlyStoresChangeMemory : Obligations.OnlyStoresChangeMemory := by
  intro s t w i hf hd h hi a
  obtain ⟨u, hu, rfl⟩ := step_effect hf hd h
  rw [finishTick_mem, hu.mem hi, advancePc_mem]

/-- Settles O17: the stack is as the instruction left it, and neither CALL nor RET stores. -/
theorem onlyCallAndReturnTouchStack : Obligations.OnlyCallAndReturnTouchStack := by
  intro s t w i hf hd h
  constructor
  · intro hi
    obtain ⟨u, hu, rfl⟩ := step_effect hf hd h
    obtain ⟨hstack, hsp⟩ := hu.stack hi
    exact ⟨(finishTick_stack _ _).trans hstack, (finishTick_sp _ _).trans hsp⟩
  · intro hi
    have hstore : storesToMemory i = false := by
      cases i with
      | call | ret => rfl
      | _ => cases hi
    exact onlyStoresChangeMemory s t w i hf hd h hstore

/-- Settles O20: neither the advance of `pc` nor the end of the tick touches `I`. -/
theorem onlyIndexInstructionsChangeIndex : Obligations.OnlyIndexInstructionsChangeIndex := by
  intro s t w i hf hd h hi
  obtain ⟨u, hu, rfl⟩ := step_effect hf hd h
  rw [finishTick_i, hu.index hi, advancePc_i]

/-- Settles O21: neither the advance of `pc` nor the end of the tick touches a register. -/
theorem onlyListedRegistersChange : Obligations.OnlyListedRegistersChange := by
  intro s t w i hf hd h r hr
  obtain ⟨u, hu, rfl⟩ := step_effect hf hd h
  rw [reg_finishTick, hu.regs r hr, reg_advancePc]

/-! The invariant, part by part. -/

/-- A store of bytes at `I` that went on put each byte in its place and kept memory canonical. -/
theorem store_spec {s t : State} {bytes : List Byte} (hlen : 0 < bytes.length) (hw : s.mem.wf = true)
    (h : orRaise (s.writeBytes (s.dataAddr 0) bytes) (fun t => .next t) = .next t) :
    t.mem.wf = true ∧ ∀ j, j < bytes.length → t.mem.read (s.i.toNat + j) = bytes.getD j 0 := by
  obtain ⟨hbound, -⟩ := store_inv h
  obtain ⟨m, hm, hmw, -, hin⟩ := store_ok s bytes (by omega) hw
  cases hm.symm.trans h
  exact ⟨hmw, hin⟩

theorem bcdDigits_length (b : Byte) : (bcdDigits b).length = 3 := rfl

/-- An instruction keeps memory canonical. -/
theorem exec_keeps_wf {i : Instr} {s t : State} (hw : s.mem.wf = true) (h : exec i s = .next t) :
    t.mem.wf = true := by
  cases i with
  | ldB => exact (store_spec (by simp [bcdDigits_length]) hw h).1
  | ldMemVx x => exact (store_spec (by simp [regsUpTo_length]) hw h).1
  | _ => rw [(exec_effect h).mem rfl, hw]

/-- An instruction leaves a stack entry alone or puts `pc` there. -/
theorem exec_stack_entry {i : Instr} {s t : State} (h : exec i s = .next t) (k : Fin 16) :
    t.stack[k.val] = s.stack[k.val] ∨ t.stack[k.val] = s.pc := by
  cases i with
  | ret =>
    obtain ⟨-, rfl⟩ := exec_ret_inv h
    exact .inl rfl
  | call =>
    obtain ⟨-, rfl⟩ := exec_call_inv h
    simp only [jumpTo_stack, Vector.getElem_set]
    split
    · exact .inr rfl
    · exact .inl rfl
  | _ => exact .inl (by rw [((exec_effect h).stack rfl).1])

/-- No row of the table of R24 leads above 0x10FE. -/
theorem pcAfter_le (i : Instr) {a : Nat} {s : State} (ha : a ≤ 0x0FFE)
    (hstack : ∀ k : Fin 16, s.stack[k.val].toNat ≤ 0x1000) : pcAfter i a s ≤ 0x10FE := by
  have hskip : ∀ c, skipTarget a c ≤ 0x10FE := fun c => by cases c <;> simp [skipTarget] <;> omega
  cases i with
  | ret =>
    rw [pcAfter]
    split
    · next h => exact (hstack ⟨s.sp.val - 1, by omega⟩).trans (by omega)
    · omega
  | jp nnn | call nnn => exact (Nat.le_of_lt nnn.isLt).trans (by omega)
  | jpV0 nnn =>
    have := (s.reg 0).isLt
    simp only [pcAfter]
    omega
  | seImm | sneImm | seReg | sneReg | skp | sknp => exact hskip _
  | ldVxK =>
    rw [pcAfter]
    split <;> omega
  | _ => exact (show a + 2 ≤ 0x10FE by omega)

/-- Settles O13: the instruction keeps memory canonical, the table of R24 bounds `pc`, and the one entry that
a CALL writes is the advanced `pc`, at most 0x1000 after a fetch. -/
theorem stepKeepsInv : Obligations.StepKeepsInv := by
  rintro s t ⟨hwf, hpc, hstack⟩ h
  obtain ⟨w, i, u, hf, hd, hx, ht⟩ := step_inv h
  have hfetch := (fetchWord_inv hf).1
  refine ⟨?wf, ?pc, ?stack⟩
  case wf =>
    rw [ht, finishTick_mem]
    exact exec_keeps_wf (s := s.advancePc) hwf hx
  case pc =>
    rw [step_pc_toNat hf hd h]
    exact pcAfter_le i hfetch hstack
  case stack =>
    intro k
    rw [ht, finishTick_stack]
    rcases exec_stack_entry hx k with hk | hk
    · exact hk ▸ hstack k
    · rw [hk, advancePc_pc_toNat hf]
      omega

/-- A load that is accepted is of at most 3583 bytes and writes memory from 0x200 on (R272). -/
theorem load_inv {s t : State} {rom : List Byte} (h : s.load rom = some t) :
    rom.length ≤ 3583 ∧ t = { s with mem := s.mem.loadFrom 0x200 rom } := by
  unfold State.load at h
  split at h
  · next hlen => exact ⟨hlen, (Option.some.inj h).symm⟩
  · cases h

/-- Settles O12: the load writes inside memory, and nothing but memory. -/
theorem invAtFirstTick : Obligations.InvAtFirstTick := by
  have hreset : Inv State.reset := ⟨rfl, by decide, by decide⟩
  refine ⟨hreset, fun rom s h => ?_⟩
  obtain ⟨hwf, hpc, hstack⟩ := hreset
  obtain ⟨hlen, rfl⟩ := load_inv h
  obtain ⟨hloaded, -⟩ := loadFrom_spec State.reset.mem 0x200 rom (by omega) hwf
  exact ⟨hloaded, hpc, hstack⟩

end Sys2Proof.Machine
end

section
/-! PROOFS. When an instruction and a step go on and how they stop; nothing is refused (60_exceptions.md R241
to R247). -/

namespace Sys2Proof.Machine

/-! The fault of an instruction is that of the one thing it checks. -/

theorem boundsFault_eq_none {s : State} {n : Nat} (h : n = 0 ∨ s.i.toNat + n ≤ 0x1000) :
    boundsFault s n = none :=
  if_neg (by omega)

theorem boundsFault_eq_some {s : State} {n : Nat} (h : ¬ (n = 0 ∨ s.i.toNat + n ≤ 0x1000)) :
    boundsFault s n = some (.memoryBounds (max s.i.toNat 0x1000)) :=
  if_pos (by omega)

theorem keyFault_eq_none {s : State} {x : Reg} (h : (s.reg x).toNat ≤ 15) : keyFault s x = none :=
  if_neg (by omega)

theorem keyFault_eq_some {s : State} {x : Reg} (h : ¬ (s.reg x).toNat ≤ 15) :
    keyFault s x = some (.keyIndex (s.reg x)) :=
  if_pos (by omega)

theorem store_next_or_fault (s : State) (bytes : List Byte) :
    (boundsFault s bytes.length = none ∧
        ∃ t, orRaise (s.writeBytes (s.dataAddr 0) bytes) (fun t => .next t) = .next t) ∨
      ∃ f, boundsFault s bytes.length = some f ∧
        orRaise (s.writeBytes (s.dataAddr 0) bytes) (fun t => .next t) = .fault f := by
  rcases store_cases s bytes with ⟨m, hm⟩ | ⟨h0, hout, hfault⟩
  · exact .inl ⟨boundsFault_eq_none (store_inv hm).1, _, hm⟩
  · exact .inr ⟨_, boundsFault_eq_some (by omega), hfault⟩

/-- An instruction completes where no fault is named for it, and stops with the named fault elsewhere. -/
theorem exec_next_or_fault (i : Instr) (s : State) :
    (faultOf i s = none ∧ ∃ t, exec i s = .next t) ∨
      ∃ f, faultOf i s = some f ∧ exec i s = .fault f := by
  cases i with
  | call nnn =>
    by_cases h : s.sp.val < 16
    · exact .inl ⟨if_neg (by omega), _, exec_call_ok nnn s h⟩
    · exact .inr ⟨_, if_pos (by omega), exec_call_full nnn s (by omega)⟩
  | ret =>
    by_cases h : 0 < s.sp.val
    · exact .inl ⟨if_neg (by omega), _, exec_ret_ok s h⟩
    · exact .inr ⟨_, if_pos (by omega), exec_ret_empty s (by omega)⟩
  | drw x y n =>
    by_cases h : n.val = 0 ∨ s.i.toNat + n.val ≤ 0x1000
    · exact .inl ⟨boundsFault_eq_none h, _, exec_drw_ok x y n s h⟩
    · exact .inr ⟨_, boundsFault_eq_some h, exec_drw_out x y n s (by omega) (by omega)⟩
  | ldB x => exact store_next_or_fault s (bcdDigits (s.reg x))
  | ldMemVx x =>
    have h := store_next_or_fault s (s.regsUpTo x)
    rw [regsUpTo_length] at h
    exact h
  | ldVxMem x =>
    by_cases h : s.i.toNat + x.val ≤ 0xFFF
    · exact .inl ⟨boundsFault_eq_none (by omega), _, exec_ldVxMem_ok x s h⟩
    · exact .inr ⟨_, boundsFault_eq_some (by omega), exec_ldVxMem_out x s (by omega)⟩
  | skp x =>
    by_cases h : (s.reg x).toNat ≤ 15
    · exact .inl ⟨keyFault_eq_none h, _, exec_skp_ok x s h⟩
    · exact .inr ⟨_, keyFault_eq_some h, exec_skp_out x s (by omega)⟩
  | sknp x =>
    by_cases h : (s.reg x).toNat ≤ 15
    · exact .inl ⟨keyFault_eq_none h, _, exec_sknp_ok x s h⟩
    · exact .inr ⟨_, keyFault_eq_some h, exec_sknp_out x s (by omega)⟩
  | _ => exact .inl ⟨rfl, _, rfl⟩

/-- Settles O15: of the two cases, the one that the state's fault decides. -/
theorem execFaultsExactlyWhen : Obligations.ExecFaultsExactlyWhen := by
  intro i s
  rcases exec_next_or_fault i s with ⟨hnone, hnext⟩ | ⟨f, hsome, hfault⟩
  · exact ⟨fun _ => hnext, fun g hg => by simp [hnone] at hg⟩
  · refine ⟨fun h => by simp [hsome] at h, fun g hg => ?_⟩
    rw [hfault, Option.some.inj (hsome.symm.trans hg)]

theorem exec_next_iff (i : Instr) (s : State) : (∃ t, exec i s = .next t) ↔ faultOf i s = none := by
  obtain ⟨hnext, hfault⟩ := execFaultsExactlyWhen i s
  refine ⟨fun ⟨t, ht⟩ => Option.eq_none_iff_forall_ne_some.2 fun f hf => ?_, hnext⟩
  cases ht.symm.trans (hfault f hf)

theorem exec_ne_refused (i : Instr) (s : State) (r : Refusal) : exec i s ≠ .refused r := by
  rcases exec_next_or_fault i s with ⟨-, t, ht⟩ | ⟨f, -, hf⟩
  · exact ht ▸ nofun
  · exact hf ▸ nofun

theorem tick_ne_refused (s : State) (r : Refusal) : tick s ≠ .refused r := by
  unfold tick
  split
  · nofun
  split
  · nofun
  unfold tickInstr
  split
  · nofun
  · nofun
  · next h => exact absurd h (exec_ne_refused _ _ _)

theorem step_ne_refused (s : State) (r : Refusal) : step s ≠ .refused r := by
  unfold step
  cases h : tick s with
  | next | fault => nofun
  | refused q => exact absurd h (tick_ne_refused s q)

/-- Settles O14: a step goes on when its instruction does; `faultOf` reads nothing that the advance of `pc`
changes. -/
theorem stepGoesOnExactlyWhen : Obligations.StepGoesOnExactlyWhen := by
  refine fun s => ⟨⟨?goes, ?back⟩, step_ne_refused s⟩
  case goes =>
    rintro ⟨t, h⟩
    obtain ⟨w, i, u, hf, hd, hx, -⟩ := step_inv h
    obtain ⟨hpc, rfl⟩ := fetchWord_inv hf
    exact ⟨hpc, i, hd, (exec_next_iff i s.advancePc).1 ⟨u, hx⟩⟩
  case back =>
    rintro ⟨hpc, i, hd, hnone⟩
    obtain ⟨u, hx⟩ := (exec_next_iff i s.advancePc).2 hnone
    exact ⟨_, step_of_next (fetchWord_ok s hpc) hd hx⟩

/-! The end of a run (R285). -/

theorem runTicks_ne_refused (k : Nat) (s : State) (r : Refusal) : runTicks k s ≠ .refused r := by
  induction k generalizing s with
  | zero => nofun
  | succ k ih =>
    unfold runTicks
    split
    · exact ih _
    · nofun
    · nofun
    · next h => exact absurd h (tick_ne_refused s _)

/-- A run that has ended within `k` ticks ends in the same way however many more are allowed. -/
theorem runTicks_of_ended {k j : Nat} (hkj : k ≤ j) {s : State} {e : RunEnd}
    (hended : ∀ t, e ≠ .unfinished t) (h : runTicks k s = e) : runTicks j s = e := by
  induction k generalizing j s with
  | zero => exact absurd h.symm (hended s)
  | succ k ih =>
    obtain ⟨j, rfl⟩ := Nat.exists_eq_add_one_of_ne_zero (n := j) (by omega)
    unfold runTicks at h ⊢
    split at h
    · exact ih (by omega) h
    all_goals exact h

/-- A run that does not fault is safe: it is never refused. -/
theorem safeRun_iff (k : Nat) (s : State) : SafeRun k s ↔ ∀ f, runTicks k s ≠ .faulted f := by
  constructor
  · rintro ⟨t, h | h⟩ f <;> exact h ▸ nofun
  · intro hsafe
    cases h : runTicks k s with
    | unfinished t => exact ⟨t, .inl h⟩
    | halted t => exact ⟨t, .inr h⟩
    | faulted f => exact absurd h (hsafe f)
    | refused r => exact absurd h (runTicks_ne_refused k s r)

/-- Settles O59: halted and faulted are ends, and a run is never refused. -/
theorem runEndIsFinal : Obligations.RunEndIsFinal := by
  intro k j s hkj
  exact ⟨fun _ => runTicks_of_ended hkj nofun, fun _ => runTicks_of_ended hkj nofun, safeRun_iff k s⟩

end Sys2Proof.Machine
end

section
/-! PROOFS. What no instruction depends on: the framebuffer but for CLS and DRW, the sound timer, the inputs
but where they are taken (10_state.md R27, R29, 60_exceptions.md R256). -/

namespace Sys2Proof.Machine

/-- The same state with another sound timer and framebuffer and other inputs to come. -/
def State.withUnread (s : State) (st : Byte) (fb : Framebuffer) (ins : List TickInput) (n : Nat) :
    State :=
  { s with st := st, fb := fb, inputs := ins, tickNo := n }

/-- What an instruction makes of such a replacement: it stays but where the instruction writes. -/
def keepUnread (i : Instr) (st : Byte) (fb : Framebuffer) (ins : List TickInput) (n : Nat)
    (t : State) : State :=
  t.withUnread (if loadsSoundTimer i then t.st else st) (if writesScreen i then t.fb else fb) ins n

theorem onNext_congr {f g : State → State} {r : Result} (h : ∀ t, r = .next t → f t = g t) :
    onNext f r = onNext g r := by
  cases r with
  | next t => exact congrArg _ (h t rfl)
  | fault | refused => rfl

/-- The same check, and after it the same but for `f`. -/
theorem orRaise_onNext {α : Type} {r r' : Except Fault α} {k k' : α → Result} {f : State → State}
    (hr : r' = r) (hk : ∀ a, k' a = onNext f (k a)) : orRaise r' k' = onNext f (orRaise r k) := by
  subst hr
  cases r' with
  | ok a => exact hk a
  | error => rfl

section
variable (s : State) (st : Byte) (fb : Framebuffer) (ins : List TickInput) (n : Nat)

theorem skipIf_withUnread (c : Bool) :
    (s.withUnread st fb ins n).skipIf c = (s.skipIf c).withUnread st fb ins n := by
  cases c <;> rfl

theorem readBytes_withUnread (a k : Nat) :
    (s.withUnread st fb ins n).readBytes a k = s.readBytes a k :=
  readBytes_congr (s := s) (t := s.withUnread st fb ins n) rfl a k

theorem keyQuery_withUnread (h : (s.withUnread st fb ins n).input.keys = s.input.keys) (x : Reg) :
    (s.withUnread st fb ins n).keyQuery x = s.keyQuery x := by
  rw [State.keyQuery, State.keyQuery, h]
  rfl

/-- A store depends on memory and `I` alone. -/
theorem store_withUnread (bytes : List Byte) :
    orRaise ((s.withUnread st fb ins n).writeBytes (s.dataAddr 0) bytes) (fun t => .next t) =
      onNext (fun t => t.withUnread st fb ins n)
        (orRaise (s.writeBytes (s.dataAddr 0) bytes) fun t => .next t) := by
  rw [writeBytes_congr (s := s) (t := s.withUnread st fb ins n) rfl]
  rcases writeBytes_cases s (s.dataAddr 0) bytes with ⟨m, hm⟩ | ⟨-, -, hm⟩ <;> rw [hm] <;> rfl

/-- With another sound timer and framebuffer and other inputs to come an instruction does the same,
provided that what it reads of them agrees. -/
theorem exec_withUnread (i : Instr) (hfb : writesScreen i = true → fb = s.fb)
    (hkeys : usesKeys i = true → (s.withUnread st fb ins n).input.keys = s.input.keys)
    (hrnd : usesRandom i = true → (s.withUnread st fb ins n).input.rnd = s.input.rnd) :
    exec i (s.withUnread st fb ins n) = onNext (keepUnread i st fb ins n) (exec i s) := by
  cases i with
  | seImm | sneImm | seReg | sneReg => exact congrArg _ (skipIf_withUnread s st fb ins n _)
  | rnd x kk =>
    rw [exec_rnd, exec_rnd, hrnd rfl]
    rfl
  | call nnn =>
    by_cases h : s.sp.val < 16
    · rw [exec_call_ok nnn s h, exec_call_ok nnn (s.withUnread st fb ins n) h]
      rfl
    · rw [exec_call_full nnn s (by omega),
        exec_call_full nnn (s.withUnread st fb ins n) (show s.sp.val = 16 by omega)]
      rfl
  | ret =>
    by_cases h : 0 < s.sp.val
    · rw [exec_ret_ok s h, exec_ret_ok (s.withUnread st fb ins n) h]
      rfl
    · rw [exec_ret_empty s (by omega),
        exec_ret_empty (s.withUnread st fb ins n) (show s.sp.val = 0 by omega)]
      rfl
  | drw x y k =>
    obtain rfl := hfb rfl
    exact orRaise_onNext (readBytes_withUnread s st _ ins n _ _) fun _ => rfl
  | ldVxMem x => exact orRaise_onNext (readBytes_withUnread s st _ ins n _ _) fun _ => rfl
  | ldB x => exact store_withUnread s st fb ins n (bcdDigits (s.reg x))
  | ldMemVx x => exact store_withUnread s st fb ins n (s.regsUpTo x)
  | skp x | sknp x =>
    exact orRaise_onNext (keyQuery_withUnread s st fb ins n (hkeys rfl) x) fun _ =>
      congrArg _ (skipIf_withUnread s st fb ins n _)
  | ldVxK x =>
    change execLdVxK x (s.withUnread st fb ins n) = onNext _ (execLdVxK x s)
    rw [execLdVxK, execLdVxK, hkeys rfl]
    cases anyKey s.input.keys <;> rfl
  | _ => rfl

end

/-! A field that an instruction does not write keeps its own value. -/

theorem ExecEffect.st_kept {i : Instr} {s t : State} (h : ExecEffect i s t) :
    (if loadsSoundTimer i then t.st else s.st) = t.st := by
  cases i with
  | ldStVx => rfl
  | _ => exact h.st.symm

theorem ExecEffect.screen_kept {i : Instr} {s t : State} (h : ExecEffect i s t) :
    (if writesScreen i then t.fb else s.fb) = t.fb := by
  split
  · rfl
  · next hi => exact (h.screen (Bool.eq_false_iff.2 hi)).symm

/-- Settles O18: only the framebuffer is replaced, and every other field keeps its own value. -/
theorem onlyClearAndDrawReachScreen : Obligations.OnlyClearAndDrawReachScreen := by
  intro i s fb hi
  refine ⟨fun t h => (exec_effect h).screen hi, ?_⟩
  have hexec := exec_withUnread s s.st fb s.inputs s.tickNo i (by simp [hi]) (fun _ => rfl) fun _ => rfl
  refine hexec.trans (onNext_congr fun t h => ?_)
  have hu := exec_effect h
  obtain ⟨hins, hno⟩ := hu.inputs
  simp [keepUnread, State.withUnread, hi, hu.st_kept, ← hins, ← hno]

/-- Settles O19: only the sound timer is replaced. -/
theorem nothingReadsSoundTimer : Obligations.NothingReadsSoundTimer := by
  intro i s b
  have hexec := exec_withUnread s b s.fb s.inputs s.tickNo i (fun _ => rfl) (fun _ => rfl) fun _ => rfl
  refine hexec.trans (onNext_congr fun t h => ?_)
  have hu := exec_effect h
  obtain ⟨hins, hno⟩ := hu.inputs
  simp [keepUnread, State.withUnread, hu.screen_kept, ← hins, ← hno]

/-- Settles O23: only the inputs are replaced. -/
theorem inputsReachOnlyTheirInstructions : Obligations.InputsReachOnlyTheirInstructions := by
  intro i s ins n hkeys hrnd
  refine ⟨?_, fun t h => (exec_effect h).inputs⟩
  have hexec := exec_withUnread s s.st s.fb ins n i (fun _ => rfl) hkeys hrnd
  refine hexec.trans (onNext_congr fun t h => ?_)
  have hu := exec_effect h
  simp [keepUnread, State.withUnread, State.withInputs, hu.st_kept, hu.screen_kept]

end Sys2Proof.Machine
end

section
/-! PROOFS. Shifts, random, register 15 as destination and what register 15 receives as a flag (10_state.md
R22, 42_alu.md R150, R157 to R164). -/

namespace Sys2Proof.Machine

/-! The words of the shifts and of RND decode to them (R85 rows 18, 20, 24). -/

theorem decode_wordXyn_shr (x y : Reg) : decode (wordXyn 0x8 x y 0x6) = some (.shr x y) := by
  simp [wordXyn_eq_pack, decode, decodeAlu]

theorem decode_wordXyn_shl (x y : Reg) : decode (wordXyn 0x8 x y 0xE) = some (.shl x y) := by
  simp [wordXyn_eq_pack, decode, decodeAlu]

theorem decode_wordXkk_rnd (x : Reg) (kk : Byte) :
    decode (wordXkk 0xC x kk.toNat) = some (.rnd x kk) := by
  simp [wordXkk_toNat_eq_pack, decode]

/-! The results and the flags of the shifts as numbers (R159, R161). -/

theorem shiftRight_one_toNat (b : Byte) : (b >>> 1).toNat = b.toNat / 2 := by
  rw [BitVec.toNat_ushiftRight, Nat.shiftRight_eq_div_pow, pow_one]

theorem shiftLeft_one_toNat (b : Byte) : (b <<< 1).toNat = 2 * b.toNat % 256 := by
  rw [BitVec.toNat_shiftLeft, Nat.shiftLeft_eq, pow_one, Nat.mul_comm]

theorem flagByte_toNat (f : Bool) : (flagByte f).toNat = f.toNat := by
  cases f <;> rfl

theorem flagByte_lowBitFlag_toNat (b : Byte) : (flagByte (lowBitFlag b)).toNat = b.toNat % 2 := by
  rw [flagByte_toNat, lowBitFlag, BitVec.getLsbD, Nat.toNat_testBit, pow_zero, Nat.div_one]

theorem flagByte_highBitFlag_toNat (b : Byte) : (flagByte (highBitFlag b)).toNat = b.toNat / 128 := by
  have := b.isLt
  rw [flagByte_toNat, highBitFlag, BitVec.getLsbD, Nat.toNat_testBit]
  omega

/-- A flag written to the destination itself is lost, so one register changes (R150). -/
theorem frame_setFlagThenReg_flagReg (s : State) (f : Bool) (b : Byte) :
    RegsSameBut flagReg s (s.setFlagThenReg f flagReg b) ∧
      OnlyRegs s (s.setFlagThenReg f flagReg b) :=
  ⟨fun r hr => regsSameButFlag_setFlagThenReg s f flagReg b r hr hr,
    onlyRegs_setFlagThenReg s f flagReg b⟩

/-- Settles O39: each shift writes the bit shifted out as the flag and then the shifted byte. -/
theorem shiftsInPlace : Obligations.ShiftsInPlace := by
  intro x y s hx
  refine ⟨decode_wordXyn_shr x y, decode_wordXyn_shl x y, ?shr, ?shl⟩
  case shr =>
    refine ⟨_, exec_shr x y s, ?_, ?_, regsSameButFlag_setFlagThenReg s _ x _,
      onlyRegs_setFlagThenReg s _ x _⟩
    · rw [reg_setFlagThenReg_self, shiftRight_one_toNat]
    · rw [reg_setFlagThenReg_flag s _ _ hx, flagByte_lowBitFlag_toNat]
  case shl =>
    refine ⟨_, exec_shl x y s, ?_, ?_, regsSameButFlag_setFlagThenReg s _ x _,
      onlyRegs_setFlagThenReg s _ x _⟩
    · rw [reg_setFlagThenReg_self, shiftLeft_one_toNat]
    · rw [reg_setFlagThenReg_flag s _ _ hx, flagByte_highBitFlag_toNat]

/-- Settles O40: the result is the only write that stays, and is the number that each rule gives. -/
theorem flagRegisterAsDestination : Obligations.FlagRegisterAsDestination := by
  intro y s
  refine ⟨⟨_, exec_addReg flagReg y s, ?add, frame_setFlagThenReg_flagReg s _ _⟩,
    ⟨_, exec_subReg flagReg y s, ?sub, frame_setFlagThenReg_flagReg s _ _⟩,
    ⟨_, exec_subn flagReg y s, ?subn, frame_setFlagThenReg_flagReg s _ _⟩,
    ⟨_, exec_shr flagReg y s, ?shr, frame_setFlagThenReg_flagReg s _ _⟩,
    ⟨_, exec_shl flagReg y s, ?shl, frame_setFlagThenReg_flagReg s _ _⟩⟩
  all_goals rw [reg_setFlagThenReg_self]
  case add => exact BitVec.toNat_add _ _
  case sub => exact byte_sub_toNat _ _
  case subn => exact byte_sub_toNat _ _
  case shr => exact shiftRight_one_toNat _
  case shl => exact shiftLeft_one_toNat _

/-- Settles O41: one register write, of a byte whose bits are those of both. -/
theorem randomIsMasked : Obligations.RandomIsMasked := by
  intro x kk s
  refine ⟨decode_wordXkk_rnd x kk, _, exec_rnd x kk s, regsSameBut_setReg s x _, onlyRegs_setReg s x _,
    fun k => ?_⟩
  rw [reg_setReg_self, BitVec.getLsbD_and]

/-- Settles O22: the flag written first stays where the destination is another register, and an instruction
that may not write register 15 has no effect on it. -/
theorem flagRegisterSideEffects : Obligations.FlagRegisterSideEffects := by
  intro s t x y hx
  refine ⟨?add, ?sub, ?subn, ?shr, ?shl, ?drw, ?other⟩
  case add =>
    rintro ⟨⟩
    rw [reg_setFlagThenReg_flag s _ _ hx, flagByte_carryFlag]
  case sub =>
    rintro ⟨⟩
    rw [reg_setFlagThenReg_flag s _ _ hx, flagByte_greaterFlag]
  case subn =>
    rintro ⟨⟩
    rw [reg_setFlagThenReg_flag s _ _ hx, flagByte_greaterFlag]
  case shr =>
    rintro ⟨⟩
    rw [reg_setFlagThenReg_flag s _ _ hx, flagByte_lowBitFlag_toNat]
  case shl =>
    rintro ⟨⟩
    rw [reg_setFlagThenReg_flag s _ _ hx, flagByte_highBitFlag_toNat]
  case drw =>
    intro n h
    obtain ⟨-, rfl⟩ := exec_drw_inv h
    rw [reg_setReg_self]
    exact ⟨flagByte_cases _, (flagByte_eq_one _).trans (draw_collision_iff (spriteAt_length_le s n))⟩
  case other => exact fun i hi h => (exec_effect h).regs flagReg hi

end Sys2Proof.Machine
end

section
/-! PROOFS. The stores and loads at `I`, DRW, and the fetch of what was stored (20_memory.md R70,
43_index_memory.md R181 to R186, 44_display.md R202). -/

namespace Sys2Proof.Machine

/-! The words of these instructions decode to them (R85 rows 25, 32, 34 to 36). -/

theorem decode_wordXyn_drw (x y : Reg) (n : Fin 16) :
    decode (wordXyn 0xD x y n.val) = some (.drw x y n) := by
  simp [wordXyn_eq_pack _ n.isLt, decode]

theorem decode_wordXkk_addI (x : Reg) : decode (wordXkk 0xF x 0x1E) = some (.addI x) := by
  simp [wordXkk_eq_pack, decode, decodeMisc]

theorem decode_wordXkk_ldB (x : Reg) : decode (wordXkk 0xF x 0x33) = some (.ldB x) := by
  simp [wordXkk_eq_pack, decode, decodeMisc]

theorem decode_wordXkk_ldMemVx (x : Reg) : decode (wordXkk 0xF x 0x55) = some (.ldMemVx x) := by
  simp [wordXkk_eq_pack, decode, decodeMisc]

theorem decode_wordXkk_ldVxMem (x : Reg) : decode (wordXkk 0xF x 0x65) = some (.ldVxMem x) := by
  simp [wordXkk_eq_pack, decode, decodeMisc]

/-- The frame of a write to memory. -/
theorem onlyMem_writeMem (s : State) (m : Memory) : OnlyMem s { s with mem := m } :=
  ⟨fun _ => rfl, rfl, rfl, ⟨rfl, rfl⟩, ⟨rfl, rfl⟩, fun _ _ => rfl, ⟨rfl, rfl⟩⟩

/-- Settles O43: one write to `I`, of a sum of 16-bit words. -/
theorem indexAddWraps : Obligations.IndexAddWraps := by
  intro x s
  refine ⟨decode_wordXkk_addI x, _, exec_addI x s, ?_, onlyIndex_writeIndex s _⟩
  rw [BitVec.toNat_add, zextByte_toNat]

/-! The digits of a byte are below 10, so a byte holds each unreduced (R183). -/

theorem bcdDigits_toNat (b : Byte) :
    ((bcdDigits b).getD 0 0).toNat = b.toNat / 100 ∧
      ((bcdDigits b).getD 1 0).toNat = b.toNat / 10 % 10 ∧
      ((bcdDigits b).getD 2 0).toNat = b.toNat % 10 := by
  have := b.isLt
  simp only [bcdDigits, List.getD_cons_zero, List.getD_cons_succ, BitVec.toNat_ofNat]
  omega

/-- Settles O44: a store of the three digits. -/
theorem bcdStoresDigits : Obligations.BcdStoresDigits := by
  intro x s
  have hlen := bcdDigits_length (s.reg x)
  refine ⟨decode_wordXkk_ldB x, ?inside, ?outside⟩
  case inside =>
    intro hin hw
    obtain ⟨m, hm, -, hout, hread⟩ := store_ok s (bcdDigits (s.reg x)) (by omega) hw
    obtain ⟨h100, h10, h1⟩ := bcdDigits_toNat (s.reg x)
    refine ⟨_, hm, ?_, ?_, ?_, hout, onlyMem_writeMem s m⟩
    · rw [← h100, ← hread 0 (by omega), Nat.add_zero]
    · rw [← h10, ← hread 1 (by omega)]
    · rw [← h1, ← hread 2 (by omega)]
  case outside =>
    intro hin
    exact store_out s _ (by omega) (by omega)

/-- Settles O45: a store of the registers up to `x`. -/
theorem storeRegistersInclusive : Obligations.StoreRegistersInclusive := by
  intro x s
  have hlen := regsUpTo_length s x
  refine ⟨decode_wordXkk_ldMemVx x, ?inside, ?outside⟩
  case inside =>
    intro hin hw
    obtain ⟨m, hm, -, hout, hread⟩ := store_ok s (s.regsUpTo x) (by omega) hw
    rw [hlen] at hout
    refine ⟨_, hm, fun r hr => ?_, hout, onlyMem_writeMem s m⟩
    exact (hread r.val (hlen ▸ Nat.lt_succ_of_le hr)).trans (regsUpTo_getD s x r hr)
  case outside =>
    intro hin
    exact store_out s _ (by omega) (by omega)

/-- Settles O46: a load of the registers up to `x`. -/
theorem loadRegistersInclusive : Obligations.LoadRegistersInclusive := by
  intro x s
  refine ⟨decode_wordXkk_ldVxMem x, ?inside, exec_ldVxMem_out x s⟩
  case inside =>
    intro hin
    exact ⟨_, exec_ldVxMem_ok x s hin, fun r => reg_loaded s, fun r => reg_not_loaded s,
      rfl, rfl, ⟨rfl, rfl⟩, ⟨rfl, rfl⟩, fun _ => rfl, fun _ _ => rfl, ⟨rfl, rfl⟩⟩

/-- Settles O24: the two stored bytes are the two that the fetch puts together. -/
theorem storeIsFetched : Obligations.StoreIsFetched := by
  intro s t x k hw hk h hpc
  have hlen := regsUpTo_length s x
  have hlt : k.val < x.val := hk
  obtain ⟨hbound, m, rfl⟩ := store_inv h
  obtain ⟨-, hread⟩ := store_spec (by omega) hw h
  have hsucc : (k + 1).val = k.val + 1 := Fin.val_add_one_of_lt (hk.trans_le (Fin.le_last x))
  have hfirst := (hread k.val (by omega)).trans (regsUpTo_getD s x k hk.le)
  have hsecond := (hread (k.val + 1) (by omega)).trans
    (hsucc ▸ regsUpTo_getD s x (k + 1) (Fin.add_one_le_of_lt hk))
  have hfetch := fetchWord_ok { s with mem := m } (show s.pc.toNat ≤ 0x0FFE by omega)
  simp only [hpc, Nat.add_assoc] at hfetch
  rw [hfetch, hfirst, hsecond]

/-- Settles O49: DRW is a draw of the bytes at `I` and one write, to register 15, of the collision. -/
theorem drawInstruction : Obligations.DrawInstruction := by
  intro x y n s
  refine ⟨decode_wordXyn_drw x y n, ?inside, ?outside⟩
  case inside =>
    intro hin
    have hlen := spriteAt_length_le s n
    refine ⟨_, exec_drw_ok x y n s hin, fun _ _ => pixel_draw_of_covers hlen,
      fun _ _ => pixel_draw_of_not_covers hlen, ?_, ?_, regsSameBut_setReg _ _ _,
      rfl, rfl, ⟨rfl, rfl⟩, ⟨rfl, rfl⟩, fun _ => rfl, ⟨rfl, rfl⟩⟩
    · rw [reg_setReg_self]
      exact flagByte_cases _
    · rw [reg_setReg_self, flagByte_eq_one]
      exact draw_collision_iff hlen
  case outside =>
    rintro ⟨hn, hout⟩
    exact exec_drw_out x y n s (Nat.pos_of_ne_zero hn) hout

end Sys2Proof.Machine
end

section
/-! PROOFS. RET, CALL, JP V0 and the key skips (41_control_flow.md R130, R132, R137, 45_keys_timers.md R221,
R222). -/

namespace Sys2Proof.Machine

/-! The words of these instructions decode to them (R85 rows 6, 23, 26, 27). -/

theorem decode_wordNnn_call (nnn : Addr12) : decode (wordNnn 0x2 nnn) = some (.call nnn) := by
  simp [wordNnn_eq_pack, decode]

theorem decode_wordNnn_jpV0 (nnn : Addr12) : decode (wordNnn 0xB nnn) = some (.jpV0 nnn) := by
  simp [wordNnn_eq_pack, decode]

theorem decode_wordXkk_skp (x : Reg) : decode (wordXkk 0xE x 0x9E) = some (.skp x) := by
  simp [wordXkk_eq_pack, decode, decodeKey]

theorem decode_wordXkk_sknp (x : Reg) : decode (wordXkk 0xE x 0xA1) = some (.sknp x) := by
  simp [wordXkk_eq_pack, decode, decodeKey]

/-- The frame of a push or pop and the jump that goes with it. -/
theorem onlyPcStack_write (s : State) (stack : Vector Word 16) (sp : Fin 17) (target : Word) :
    OnlyPcStack s (State.jumpTo { s with stack := stack, sp := sp } target) :=
  ⟨fun _ => rfl, rfl, ⟨rfl, rfl⟩, fun _ => rfl, fun _ _ => rfl, ⟨rfl, rfl⟩⟩

/-- Settles O26: a pop and a jump to the popped entry. -/
theorem returnPopsOrUnderflows : Obligations.ReturnPopsOrUnderflows := by
  refine ⟨rfl, fun s => ⟨fun h => ?_, exec_ret_empty s⟩⟩
  exact ⟨_, exec_ret_ok s h, Nat.sub_add_cancel h, rfl, rfl, onlyPcStack_write s _ _ _⟩

/-- Settles O27: a push of the advanced `pc` and a jump. -/
theorem callPushesOrOverflows : Obligations.CallPushesOrOverflows := by
  intro nnn s
  refine ⟨decode_wordNnn_call nnn, fun h => ?_, exec_call_full nnn s⟩
  exact ⟨_, exec_call_ok nnn s h, rfl, Vector.getElem_set_self _,
    fun k hk => Vector.getElem_set_ne h _ hk.symm, zextAddr_toNat nnn, onlyPcStack_write s _ _ _⟩

/-- Settles O29: the entry that RET pops is the one that CALL pushed. -/
theorem returnGoesBehindItsCall : Obligations.ReturnGoesBehindItsCall := by
  rintro nnn s t u h ⟨hstack, hsp⟩
  obtain ⟨hroom, rfl⟩ := exec_call_inv h
  have hused : 0 < u.sp.val := by simp [hsp]
  refine ⟨_, exec_ret_ok u hused, ?pc, ?sp, ?entries, onlyPcStack_write u _ _ _⟩
  case pc => simp [hstack, hsp]
  case sp => simp [hsp]
  case entries =>
    intro k hk
    simp [hstack, Vector.getElem_set_ne, hk.ne']

/-- Settles O31: a jump to a sum that 16 bits hold. -/
theorem jumpOffsetAddsRegisterZero : Obligations.JumpOffsetAddsRegisterZero := by
  intro nnn s
  exact ⟨decode_wordNnn_jpV0 nnn, _, exec_jpV0 nnn s, jumpOffset_toNat nnn _, onlyPc_jumpTo s _⟩

/-- Settles O52: both instructions are a skip, on the key's being down or up. -/
theorem skipOnKey : Obligations.SkipOnKey := by
  intro x s
  refine ⟨decode_wordXkk_skp x, decode_wordXkk_sknp x, fun h => ⟨?down, ?up⟩, fun h => ?fault⟩
  case down => exact ⟨_, exec_skp_ok x s h, onlyPc_skipIf s _, skipIf_pc s _⟩
  case up =>
    refine ⟨_, exec_sknp_ok x s h, onlyPc_skipIf s _, ?_⟩
    rw [skipIf_pc]
    cases s.input.keys.getLsbD (s.reg x).toNat <;> rfl
  case fault => exact ⟨exec_skp_out x s h, exec_sknp_out x s h⟩

end Sys2Proof.Machine
end

section
/-! PROOFS. The fetch, the step on a decoded instruction, the halt tick and the delay timer over ticks
(20_memory.md R55, R56, 40_tick.md R110 to R118, 45_keys_timers.md R228). -/

namespace Sys2Proof.Machine

theorem wordOfBytes_toNat (hi lo : Byte) : (wordOfBytes hi lo).toNat = 0x100 * hi.toNat + lo.toNat := by
  have := lo.isLt
  rw [wordOfBytes, BitVec.toNat_append, ← Nat.shiftLeft_add_eq_or_of_lt lo.isLt, Nat.shiftLeft_eq]
  omega

/-- Settles O7: the fetch faults outside memory, and its word is its two bytes put together. -/
theorem fetchReadsTwoBytesOrFaults : Obligations.FetchReadsTwoBytesOrFaults := by
  refine fun s => ⟨fun h => ?outside, fun h => ?inside⟩
  case outside =>
    have htick := tick_of_bounds h
    exact ⟨htick, by rw [step, htick, dropReport]⟩
  case inside => exact ⟨_, fetchWord_ok s h, wordOfBytes_toNat _ _⟩

/-- Settles O6: the two bytes are the fetched word, and the end of the tick is told apart by HALT. -/
theorem stepRunsDecodedInstruction : Obligations.StepRunsDecodedInstruction := by
  intro s i hpc hd
  have hf := fetchWord_ok s hpc
  rw [← wordOfBytes_toNat, BitVec.ofNat_toNat, BitVec.setWidth_eq] at hd
  refine ⟨fun t hx => ?_, fun f hx => step_of_fault hf hd hx⟩
  rw [step_of_next hf hd hx]
  by_cases hi : i = .halt
  · subst hi
    rfl
  · simp only [reportOf_ok hi, if_neg hi]
    rfl

/-- Settles O9: the tick of HALT is the advance of `pc` and the end that leaves the timers. -/
theorem haltTickOnlyAdvancesPc : Obligations.HaltTickOnlyAdvancesPc := by
  refine ⟨rfl, exec_halt, fun s hf => ?_⟩
  have htick := tick_halt hf
  exact ⟨_, htick, (step_next_iff s _).2 ⟨_, htick⟩, advancePc_pc_toNat hf, fun _ => rfl, rfl, ⟨rfl, rfl⟩,
    ⟨rfl, rfl⟩, fun _ => rfl, fun _ _ => rfl⟩

/-- A tick with an instruction other than HALT and LD DT, Vx counts the delay timer down (R116). -/
theorem step_dt {s t : State}
    (hleaves : ∀ w, s.fetchWord = .ok w → decode w ≠ some .halt ∧ ∀ x, decode w ≠ some (.ldDtVx x))
    (h : step s = .next t) : t.dt.toNat = s.dt.toNat - 1 := by
  obtain ⟨w, i, u, hf, hd, -, -⟩ := step_inv h
  obtain ⟨hhalt, hload⟩ := hleaves w hf
  have hi : i ≠ .halt := fun h => hhalt (h ▸ hd)
  have hdt : loadedDt i s = s.dt := by
    cases i with
    | ldDtVx x => exact absurd hd (hload x)
    | _ => rfl
  obtain ⟨hcount, -⟩ := timersCountOkTicks s t w i hf hd h
  obtain ⟨hcounted, -⟩ := hcount hi
  rw [hcounted, hdt]

/-- Settles O55, by induction on the number of ticks. -/
theorem delayCountsTicks : Obligations.DelayCountsTicks := by
  intro j
  induction j with
  | zero =>
    rintro s t - rfl
    rfl
  | succ j ih =>
    rintro s t ⟨hfirst, hrest⟩ ⟨u, hstep, hsteps⟩
    rw [ih u t (hrest u hstep) hsteps, step_dt hfirst hstep]
    omega

end Sys2Proof.Machine
end

section
/-! PROOFS. Reset and the load of a program (10_state.md R40, 70_reset_and_hazards.md R270, R272). -/

namespace Sys2Proof.Machine

/-- Settles O57: each value is that of the reset state. -/
theorem resetValuesByDecision : Obligations.ResetValuesByDecision := by
  exact ⟨rfl, rfl, by decide, rfl, rfl, pixel_blankScreen⟩

/-- Settles O58: the load is one write to memory, or none. -/
theorem loadChecksSize : Obligations.LoadChecksSize :=
  fun s _ => ⟨fun h => ⟨_, if_pos h, onlyMem_writeMem s _⟩, fun h => if_neg (Nat.not_le.2 h)⟩

theorem initialByte_above_font {a : Nat} (h : 0x050 ≤ a) : initialByte a = 0#8 :=
  List.getD_eq_default _ _ (by rwa [show font.length = 0x050 from rfl])

/-- Settles O56: memory after reset reads as its initial bytes, and the load puts the program over them. -/
theorem resetThenLoad : Obligations.ResetThenLoad := by
  have hregs : ∀ r : Reg, State.reset.reg r = 0#8 := by decide
  refine ⟨hregs, rfl, fun _ _ _ _ => rfl, fun _ => initialByte_above_font, fun rom h => ?_⟩
  obtain ⟨-, hout, hin⟩ := loadFrom_spec State.reset.mem 0x200 rom (by omega) rfl
  exact ⟨_, if_pos h, rfl, hregs, hin, hout⟩

end Sys2Proof.Machine
end
